-- ==== Sys2Proof/Word.lean ====
section
/-! DEFINITION. The machine's value types (00_scope.md R11, R8): bytes, the unsigned words of 16, 32 and 64 bits.
`MDINT`, what a metadata value may be before it is validated, is every mathematical integer (R8 (a)): `Int`. -/

namespace Sys2Proof

/-- The spec's `u8`. -/
abbrev Byte := BitVec 8

/-- The spec's `u16`; also the width of a command word (30_encoding.md R81). -/
abbrev U16 := BitVec 16

/-- The spec's `u32`: the width of `ACC` and of a checksum (10_state.md R20, R24). -/
abbrev U32 := BitVec 32

/-- The spec's `u64`: the width of `payload_length`. -/
abbrev U64 := BitVec 64

end Sys2Proof
end

