-- ==== Sys2Proof/Config.lean ====
section
/-! DEFINITION. The constants the spec hard-wires (00_scope.md R6, R7; 10_state.md R29) and the parameters it leaves
open, at the spec's defaults (00_scope.md R8; 92_eei_decisions.md D4 to D6). None of them is state. -/

namespace Sys2Proof.Config

/-- POLY (R6). -/
def poly : U32 := 0x04C11DB7#32

/-- INIT, the value `CRC.INIT` loads (R6). -/
def init : U32 := 0xFFFFFFFF#32

/-- XOROUT: the final complement as an exclusive-or (R6). -/
def xorOut : U32 := 0xFFFFFFFF#32

/-- ROUNDS, the rounds performed for each input byte (R6). -/
def rounds : Nat := 8

/-- HDR_SIZE (R7). -/
def hdrSize : Nat := 64

/-- RES_SIZE (R7). -/
def resSize : Nat := 47

/-- Offset of `expected_size` (R7, 20_memory.md R60). -/
def offExpectedSize : Nat := 0
/-- Offset of `expected_crc`. -/
def offExpectedCrc : Nat := 8
/-- Offset of `device_type`. -/
def offDeviceType : Nat := 12
/-- Offset of `data_type`. -/
def offDataType : Nat := 14
/-- Offset of `protocol_type`. -/
def offProtocolType : Nat := 15
/-- Offset of the reserved region. -/
def offReserved : Nat := 17

/-- DEF_DEVICE_TYPE (R7). -/
def defDeviceType : Int := 65535
/-- DEF_DATA_TYPE (R7). -/
def defDataType : Int := 255
/-- DEF_PROTOCOL_TYPE (R7). -/
def defProtocolType : Int := 65535
/-- DEF_RESERVED (R7). -/
def defReserved : List Int := []

/-- The three parameters the spec leaves open (00_scope.md R8 (a) to (c)); `none` is unbounded. -/
structure Params where
  /-- MDW: the width of a signed metadata integer of a realisation (D4). -/
  mdw : Option Nat
  /-- RES_IN_MAX: the largest supplied `reserved` length (D5). -/
  resInMax : Option Nat
  /-- PAYLOAD_MAX: the largest payload of `CRC.COMPUTE` (D6). -/
  payloadMax : Option Nat
  deriving DecidableEq, Repr

/-- The spec's defaults: all three unbounded (92_eei_decisions.md, "Open parameters, gathered"). Log entry 8 (DEDUCED). -/
def params : Params := ⟨none, none, none⟩

end Sys2Proof.Config
end

