-- ==== Sys2Proof/Syntax.lean ====
section
/-! DEFINITION. The operations of CORE as syntax: one constructor for each row of the opcode map (30_encoding.md R80,
R100), with the typed operand records of format X (R83). -/

namespace Sys2Proof

/-- `FirmwareMetadata` (00_scope.md R12, 30_encoding.md R83): four optional fields, not yet validated. `none` is
`absent`, which is not `present(0)` (41_header_builder.md R151). -/
structure FirmwareMetadata where
  deviceType   : Option Int
  dataType     : Option Int
  protocolType : Option Int
  reserved     : Option (List Int)
  deriving DecidableEq, Repr

/-- The seven operations, and no others (30_encoding.md R80). -/
inductive Instr where
  /-- `CRC.INIT` (40_checksum_engine.md R120). -/
  | crcInit
  /-- `CRC.XORB b` (R121). -/
  | crcXorb (b : Byte)
  /-- `CRC.ROUND` (R122). -/
  | crcRound
  /-- `CRC.BYTE b` (R123). -/
  | crcByte (b : Byte)
  /-- `CRC.FINAL -> r` (R124). -/
  | crcFinal
  /-- `CRC.COMPUTE data -> r` (R125): `data` is the `PAY` space. -/
  | crcCompute (data : List Byte)
  /-- `HDR.BUILD payload_length, crc, metadata` (41_header_builder.md R150). -/
  | hdrBuild (payloadLength : U64) (crc : U32) (metadata : FirmwareMetadata)
  deriving DecidableEq, Repr

end Sys2Proof
end

