-- ==== Sys2Proof/WellFormed.lean ====
section
/-! DEFINITION. Which operands a realisation accepts, by the parameters the spec leaves open (00_scope.md R8). At the
spec's defaults every operand does; widths of 8, 32 and 64 bits hold by type (10_state.md R24). -/

namespace Sys2Proof

/-- A metadata integer fits a signed input of MDW bits, -2^(W-1) .. 2^(W-1) - 1 (92_eei_decisions.md D4). -/
def mdIntFits (mdw : Option Nat) (v : Int) : Bool :=
  match mdw with
  | none => true
  | some w => decide (-(2 ^ w : Int) ≤ 2 * v) && decide (2 * v < 2 ^ w)

/-- A length is within a parameter's bound (D5, D6). -/
def lengthFits (bound : Option Nat) (n : Nat) : Bool :=
  match bound with
  | none => true
  | some k => decide (n ≤ k)

/-- Each supplied metadata value fits MDW, and the supplied `reserved` sequence fits RES_IN_MAX. -/
def FirmwareMetadata.wellFormed (p : Config.Params) (md : FirmwareMetadata) : Bool :=
  md.deviceType.all (mdIntFits p.mdw) && md.dataType.all (mdIntFits p.mdw) &&
    md.protocolType.all (mdIntFits p.mdw) &&
    md.reserved.all fun vs => lengthFits p.resInMax vs.length && vs.all (mdIntFits p.mdw)

/-- An operation's operands are within the parameters `p`. -/
def Instr.wellFormed (p : Config.Params) (i : Instr) : Bool :=
  match i with
  | .crcInit => true
  | .crcXorb _ => true
  | .crcRound => true
  | .crcByte _ => true
  | .crcFinal => true
  | .crcCompute data => lengthFits p.payloadMax data.length
  | .hdrBuild _ _ md => md.wellFormed p

/-- Well formed at the spec's parameters. -/
abbrev Instr.WellFormed (i : Instr) : Prop := i.wellFormed Config.params = true

end Sys2Proof
end

