-- ==== Sys2Proof/Decode.lean ====
section
/-! DEFINITION. How an operation is presented and decoded: command words and their formats (30_encoding.md R81, R100),
the operand records (R83), the metadata source's keys (R96), the reserved words (R102), and the encoder beside it. -/

namespace Sys2Proof

/-- A value found under a key of the metadata source (30_encoding.md R96). -/
inductive MetaValue where
  /-- An integer, what the three scalar keys take. -/
  | integer (v : Int)
  /-- An ordered sequence of integers, what `Reserved` takes. -/
  | sequence (vs : List Int)
  /-- Anything else a configuration may hold; under one of the four keys it is a malformed configuration. -/
  | other (text : String)
  deriving DecidableEq, Repr

/-- The metadata source: "a key-value structure with optional keys" (R96). -/
abbrev MetadataSource := List (String × MetaValue)

/-- The operand record presented with a command word (R81, R83). Log entry 7 (DEDUCED) for the form the metadata has in it. -/
inductive Record where
  /-- Formats N and B: no record. -/
  | absent
  /-- The record of `CRC.COMPUTE`. -/
  | payload (data : List Byte)
  /-- The record of `HDR.BUILD`. -/
  | build (payloadLength : U64) (crc : U32) (metadata : MetadataSource)
  deriving DecidableEq, Repr

/-- One request of the host: a 16-bit command word and its record (R81). -/
structure Request where
  cmd    : U16
  record : Record
  deriving DecidableEq, Repr

/-- Why a request is no operation. The spec gives none of these a meaning (60_exceptions.md R207;
93_implementation_defined.md U4, U10), so each is refused by name. -/
inductive DecodeError where
  /-- A reserved command word (30_encoding.md R102). -/
  | reservedWord (cmd : U16)
  /-- A record of another kind than the command word's format takes. Log entry 5 (DESIGN CHOICE). -/
  | recordMismatch (cmd : U16)
  /-- One of the four metadata keys stands twice, or holds a value of another kind (R96, D16, U10). -/
  | malformedMetadata (key : String)
  /-- Operands beyond the open parameters; the spec's defaults admit every operand. Log entry 8 (DEDUCED). -/
  | outsideParameters (cmd : U16)
  deriving DecidableEq, Repr

/-! ### The command word (R81, R100) -/

/-- `op = cmd[15:8]`. -/
def opOf (cmd : U16) : Byte := cmd.extractLsb' 8 8

/-- `imm8 = cmd[7:0]`. -/
def immOf (cmd : U16) : Byte := cmd.extractLsb' 0 8

/-- The three command formats (R81). -/
inductive Format where
  | n
  | b
  | x
  deriving DecidableEq, Repr

/-- A row of the opcode map (R100). -/
structure OpcodeRow where
  mnemonic : String
  format   : Format
  pattern  : U16
  mask     : U16
  deriving DecidableEq, Repr

/-- The complete map of operation codes, row for row as R100 has it. -/
def opcodeTable : List OpcodeRow :=
  [⟨"CRC.INIT", .n, 0x0100#16, 0xFFFF#16⟩, ⟨"CRC.XORB", .b, 0x0200#16, 0xFF00#16⟩, ⟨"CRC.ROUND", .n, 0x0300#16, 0xFFFF#16⟩,
   ⟨"CRC.BYTE", .b, 0x0400#16, 0xFF00#16⟩, ⟨"CRC.FINAL", .n, 0x0500#16, 0xFFFF#16⟩, ⟨"CRC.COMPUTE", .x, 0x0600#16, 0xFFFF#16⟩,
   ⟨"HDR.BUILD", .x, 0x1000#16, 0xFFFF#16⟩]

/-- The command word is the row's. -/
def OpcodeRow.covers (r : OpcodeRow) (cmd : U16) : Bool := cmd &&& r.mask == r.pattern

/-! ### The metadata source (R96, R104) -/

/-- The values standing under a key, matched exactly as spelled (D16). -/
def MetadataSource.valuesAt (key : String) (src : MetadataSource) : List MetaValue :=
  (src.filter fun e => e.1 == key).map Prod.snd

/-- A scalar key: missing is `absent`, present with an integer is `present`. -/
def MetadataSource.scalar (key : String) (src : MetadataSource) : Except DecodeError (Option Int) :=
  match src.valuesAt key with
  | [] => .ok none
  | [.integer v] => .ok (some v)
  | _ => .error (.malformedMetadata key)

/-- The key `Reserved`: missing is `absent`, present with a sequence of integers is `present`. -/
def MetadataSource.sequence (key : String) (src : MetadataSource) : Except DecodeError (Option (List Int)) :=
  match src.valuesAt key with
  | [] => .ok none
  | [.sequence vs] => .ok (some vs)
  | _ => .error (.malformedMetadata key)

def keyDeviceType : String := "Device_type"
def keyDataType : String := "Data_type"
def keyProtocolType : String := "Protocol_type"
def keyReserved : String := "Reserved"

/-- The four keys of R96; every other key is unknown and ignored (R104). -/
def knownKeys : List String := [keyDeviceType, keyDataType, keyProtocolType, keyReserved]

/-- The metadata source read as a `FirmwareMetadata` (R96). -/
def MetadataSource.toMetadata (src : MetadataSource) : Except DecodeError FirmwareMetadata :=
  match src.scalar keyDeviceType with
  | .error e => .error e
  | .ok dev =>
    match src.scalar keyDataType with
    | .error e => .error e
    | .ok dat =>
      match src.scalar keyProtocolType with
      | .error e => .error e
      | .ok pro =>
        match src.sequence keyReserved with
        | .error e => .error e
        | .ok res => .ok ⟨dev, dat, pro, res⟩

/-- A `FirmwareMetadata` as a metadata source: a key for each present field. -/
def FirmwareMetadata.toSource (md : FirmwareMetadata) : MetadataSource :=
  md.deviceType.toList.map (fun v => (keyDeviceType, MetaValue.integer v)) ++
    (md.dataType.toList.map (fun v => (keyDataType, MetaValue.integer v)) ++
      (md.protocolType.toList.map (fun v => (keyProtocolType, MetaValue.integer v)) ++
        md.reserved.toList.map (fun vs => (keyReserved, MetaValue.sequence vs))))

/-! ### Decoding -/

/-- Format N or B: the operation takes no record. -/
def takeNoRecord (i : Instr) (r : Request) : Except DecodeError Instr :=
  match r.record with
  | .absent => .ok i
  | _ => .error (.recordMismatch r.cmd)

/-- `CRC.COMPUTE` with its record. -/
def takePayload (r : Request) : Except DecodeError Instr :=
  match r.record with
  | .payload data => .ok (.crcCompute data)
  | _ => .error (.recordMismatch r.cmd)

/-- `HDR.BUILD` with its record. -/
def takeBuild (r : Request) : Except DecodeError Instr :=
  match r.record with
  | .build len crc src =>
    match src.toMetadata with
    | .ok md => .ok (.hdrBuild len crc md)
    | .error e => .error e
  | _ => .error (.recordMismatch r.cmd)

/-- The operation a request names, before its operands are held against the parameters (R100, R102). -/
def decodeOp (r : Request) : Except DecodeError Instr :=
  if opOf r.cmd = 0x02#8 then takeNoRecord (.crcXorb (immOf r.cmd)) r
  else if opOf r.cmd = 0x04#8 then takeNoRecord (.crcByte (immOf r.cmd)) r
  else if immOf r.cmd ≠ 0x00#8 then .error (.reservedWord r.cmd)
  else if opOf r.cmd = 0x01#8 then takeNoRecord .crcInit r
  else if opOf r.cmd = 0x03#8 then takeNoRecord .crcRound r
  else if opOf r.cmd = 0x05#8 then takeNoRecord .crcFinal r
  else if opOf r.cmd = 0x06#8 then takePayload r
  else if opOf r.cmd = 0x10#8 then takeBuild r
  else .error (.reservedWord r.cmd)

/-- Decoding against parameters `p`. -/
def decodeAt (p : Config.Params) (r : Request) : Except DecodeError Instr :=
  match decodeOp r with
  | .ok i => if i.wellFormed p then .ok i else .error (.outsideParameters r.cmd)
  | .error e => .error e

/-- The decoder, total on every request, at the spec's parameters. -/
def decode (r : Request) : Except DecodeError Instr := decodeAt Config.params r

/-! ### Encoding -/

/-- The mnemonic of R100. -/
def Instr.mnemonic (i : Instr) : String :=
  match i with
  | .crcInit => "CRC.INIT"
  | .crcXorb _ => "CRC.XORB"
  | .crcRound => "CRC.ROUND"
  | .crcByte _ => "CRC.BYTE"
  | .crcFinal => "CRC.FINAL"
  | .crcCompute _ => "CRC.COMPUTE"
  | .hdrBuild _ _ _ => "HDR.BUILD"

/-- The request of an operation, from the encodings of R100. -/
def encode (i : Instr) : Request :=
  match i with
  | .crcInit => ⟨0x0100#16, .absent⟩
  | .crcXorb b => ⟨0x0200#16 ||| b.setWidth 16, .absent⟩
  | .crcRound => ⟨0x0300#16, .absent⟩
  | .crcByte b => ⟨0x0400#16 ||| b.setWidth 16, .absent⟩
  | .crcFinal => ⟨0x0500#16, .absent⟩
  | .crcCompute data => ⟨0x0600#16, .payload data⟩
  | .hdrBuild len crc md => ⟨0x1000#16, .build len crc md.toSource⟩

/-! ### Words of the opcode table -/

/-- The record of a command word whose operand record is all zero: no bytes, zero length, zero checksum and no
metadata key. Log entry 6 (DESIGN CHOICE). -/
def Record.zeroFor (cmd : U16) : Record :=
  if opOf cmd = 0x06#8 then .payload []
  else if opOf cmd = 0x10#8 then .build 0 0 []
  else .absent

/-- The request a table word stands for, its record all zero; a command word is presented whole, so no byte order
arises. -/
def wordRequest (nbits w : Nat) : Request :=
  ⟨BitVec.ofNat 16 (w % 2 ^ nbits), Record.zeroFor (BitVec.ofNat 16 (w % 2 ^ nbits))⟩

/-- What the decoder reads from an instruction whose bits are `w`, as spec/opcode_table.json numbers them. -/
def decodeTableWord (nbits w : Nat) : Option Instr :=
  if w % 2 ^ nbits < 2 ^ 16 then (decode (wordRequest nbits w)).toOption else none

end Sys2Proof
end

