-- ==== Sys2Proof/Machine/State.lean ====
section
/-! DEFINITION. The machine's state as plain data (10_state.md), the responses and errors it answers with
(30_encoding.md R90, R91), and the reasons a step can stop. -/

namespace Sys2Proof.Machine

/-- The scalar field an error names, an enumeration (30_encoding.md R93). -/
inductive Field where
  | deviceType
  | dataType
  | protocolType
  deriving DecidableEq, Repr

/-- `ValidationError`, closed at two kinds (60_exceptions.md R190, R192). -/
inductive ValidationError where
  /-- A scalar metadata field is outside its range. -/
  | outOfRangeField (field : Field) (lo hi : Nat)
  /-- The reserved element at `index` is outside its range. -/
  | outOfRangeReservedElement (index lo hi : Nat)
  deriving DecidableEq, Repr

/-- The one response with which an operation ends (30_encoding.md R90). -/
inductive Response where
  /-- `done`, no value. -/
  | done
  /-- The `u32` of `CRC.FINAL` and `CRC.COMPUTE`. -/
  | checksum (r : U32)
  /-- `Ok(h)`. -/
  | ok (h : List Byte)
  /-- `Err(e)`. -/
  | err (e : ValidationError)
  deriving DecidableEq, Repr

/-- The resolved metadata, stage 1's result (41_header_builder.md R151); `res` is the `RESIN` space. -/
structure Resolved where
  dev : Int
  dat : Int
  pro : Int
  res : List Int
  deriving DecidableEq, Repr

/-- A byte space as (offset, byte) cells, offsets strictly rising; an offset not listed has not been written. -/
abbrev Memory := List Host.Cell

/-- The six fields in layout order (30_encoding.md R84). -/
inductive HdrField where
  | expectedSize
  | expectedCrc
  | deviceType
  | dataType
  | protocolType
  | reserved
  deriving DecidableEq, Repr

/-- The sequencing state (10_state.md R27): the phase of the operation in progress, its indices `i` and `k`, its
operands and its working values (R22). Between operations it is `idle` (R31). Log entry 9 (DEDUCED). -/
inductive Seq where
  | idle
  /-- `CRC.BYTE`: (XOR, -, 0). -/
  | byteXor (b : Byte)
  /-- `CRC.BYTE`: (SHIFT, -, k). -/
  | byteShift (k : Nat)
  /-- `CRC.COMPUTE`: (INIT, -, -). -/
  | computeInit (data : List Byte)
  /-- `CRC.COMPUTE`: the XOR step on byte i. -/
  | computeXor (data : List Byte) (i : Nat)
  /-- `CRC.COMPUTE`: round k on byte i. -/
  | computeShift (data : List Byte) (i k : Nat)
  /-- `CRC.COMPUTE`: (FINAL, -, -). -/
  | computeFinal
  /-- `HDR.BUILD`: (RESOLVE). -/
  | buildResolve (len : U64) (crc : U32) (md : FirmwareMetadata)
  /-- `HDR.BUILD`: (CHECK, field f). -/
  | buildCheck (len : U64) (crc : U32) (r : Resolved) (f : Field)
  /-- `HDR.BUILD`: (CHECK, reserved element i). -/
  | buildCheckElement (len : U64) (crc : U32) (r : Resolved) (i : Nat)
  /-- `HDR.BUILD`: (NORM). -/
  | buildNorm (len : U64) (crc : U32) (r : Resolved)
  /-- `HDR.BUILD`: (SER, field f), with the bytes of `HDR` written so far (10_state.md R30 (3)). -/
  | buildSer (len : U64) (crc : U32) (r : Resolved) (res47 : List Byte) (f : HdrField) (hdr : Memory)
  deriving DecidableEq, Repr

/-- What the host may send: an operation (20_memory.md R66), or reset (70_reset_and_hazards.md R220). -/
inductive HostInput where
  | issue (r : Request)
  | reset
  deriving DecidableEq, Repr

/-- The whole machine. -/
structure State where
  /-- The accumulator; `none` is the spec's "holds no value" (10_state.md R20, R23, R36). Log entry 1 (UNVERIFIED). -/
  acc : Option U32
  /-- The sequencing state (R27). -/
  seq : Seq
  /-- What the host has sent and CORE has not yet taken, oldest first; the model's own field. Log entry 2 (DESIGN CHOICE). -/
  inputs : List HostInput
  /-- The responses given in this run, in order (70_reset_and_hazards.md R222); no operation reads them (10_state.md
  R29). Log entry 3 (DESIGN CHOICE). -/
  responses : List Response
  deriving DecidableEq, Repr

/-- The state after reset (10_state.md R36), nothing issued yet. -/
def State.reset : State := ⟨none, .idle, [], []⟩

/-- Why the machine stops with a fault. CORE has no fault beyond the two errors, which are responses (60_exceptions.md
R190). -/
inductive Fault where
  /-- Raised by the last store of HDR.BUILD if the assembled header fails "assert len(HDR) = 64" (41_header_builder.md
  R159). The assertion always holds (R165), so only a state no operation leads to can raise this. Safe: it stops. -/
  | headerLength
  deriving DecidableEq, Repr

/-- Why the machine refuses to go on, where the spec gives no meaning (60_exceptions.md R207). -/
inductive Refusal where
  /-- Raised by `exec` for an instruction the model gives no meaning; no arm does. Safe. -/
  | notModelled (mnemonic : String)
  /-- Raised by CRC.XORB, CRC.ROUND, CRC.BYTE and CRC.FINAL, and by a micro-step of them, while `ACC` holds no value
  (10_state.md R23, 60_exceptions.md R207, 93_implementation_defined.md U3). Safe: the spec says a model must refuse, and
  must not substitute any value. -/
  | accUnwritten
  /-- Raised by `step` for a request that is no operation (30_encoding.md R102 and `DecodeError`). Safe: it stops. -/
  | undecodable (why : DecodeError)
  deriving DecidableEq, Repr

end Sys2Proof.Machine
end

