-- ==== Sys2Proof/Machine/Flags.lean ====
section
/-! DEFINITION. The conditions the operations test. CORE stores no flag (10_state.md R28): the top bit is a function of
`ACC`, and a bound check leaves nothing behind. -/

namespace Sys2Proof.Machine

/-- `fb = ACC[31]`, "the top bit", sampled before the shift (40_checksum_engine.md R122). -/
def topBit (a : U32) : Bool := a.getLsbD 31

/-- `x ∈ [lo, hi]` on mathematical integers (00_scope.md R9, 41_header_builder.md R168). -/
def inRange (lo hi : Nat) (x : Int) : Bool := decide ((lo : Int) ≤ x) && decide (x ≤ (hi : Int))

/-- The lower bound of every range (30_encoding.md R92). -/
def fieldLo : Nat := 0

/-- The upper bound of a scalar field's range (41_header_builder.md R154 to R156). -/
def fieldHi (f : Field) : Nat :=
  match f with
  | .deviceType => 65535
  | .dataType => 255
  | .protocolType => 65535

/-- The upper bound of a reserved element (R157). -/
def elementHi : Nat := 255

end Sys2Proof.Machine
end

