-- ==== Sys2Proof/Machine/Operands.lean ====
section
/-! DEFINITION. How operands are assembled (30_encoding.md R86 to R89): the byte immediate, the resolved metadata, the
47 reserved bytes. -/

namespace Sys2Proof.Machine

/-- `zext_32(b) << 24`, the operand of the high-byte XOR (R86). -/
def byteOperand (b : Byte) : U32 := b.setWidth 32 <<< 24

/-- Stage 1, `resolve` (41_header_builder.md R151; R87): a present value as it is, an absent one replaced by its
default. -/
def resolve (md : FirmwareMetadata) : Resolved :=
  ⟨md.deviceType.getD Config.defDeviceType, md.dataType.getD Config.defDataType,
   md.protocolType.getD Config.defProtocolType, md.reserved.getD Config.defReserved⟩

/-- The resolved value of a scalar field. -/
def Resolved.field (r : Resolved) (f : Field) : Int :=
  match f with
  | .deviceType => r.dev
  | .dataType => r.dat
  | .protocolType => r.pro

/-- A validated integer as an 8-bit value, exact after the check (R89). -/
def toU8 (v : Int) : Byte := BitVec.ofInt 8 v

/-- A validated integer as a 16-bit value, exact after the check (R89). -/
def toU16 (v : Int) : U16 := BitVec.ofInt 16 v

/-- Stage 3, `norm47` (41_header_builder.md R158; R88): padded on the right with zero bytes, cut to 47. -/
def norm47 (res : List Int) : List Byte :=
  (res.map toU8 ++ List.replicate Config.resSize 0x00#8).take Config.resSize

end Sys2Proof.Machine
end

