-- ==== Sys2Proof/Machine/Ops.lean ====
section
/-! DEFINITION. The named operations the meanings share: the accumulator, the response, raising a validation error,
reset, and the bytes of the header space. -/

namespace Sys2Proof.Machine

/-- The outcome of one operation or step. -/
abbrev Result := Host.Outcome State Fault Refusal

/-- Go on from a next state; a fault or a refusal ends the run. -/
def andThen (o : Result) (k : State → Result) : Result :=
  match o with
  | .next s => k s
  | .fault f => .fault f
  | .refused r => .refused r

/-! ### Accumulator and responses -/

/-- Read `ACC`: refused while it holds no value, and no value is substituted. The spec states this stop: "a model must
refuse them ... and must not substitute 0, 0xFFFFFFFF or any other value" (10_state.md R23; also 60_exceptions.md R207,
92_eei_decisions.md D11, 93_implementation_defined.md U3, "never a value", and the outcomes of 95_test_vectors.md T10). -/
def withAcc (s : State) (k : U32 → Result) : Result :=
  match s.acc with
  | some a => k a
  | none => .refused .accUnwritten

/-- `ACC <- v`. -/
def writeAcc (v : U32) (s : State) : State := { s with acc := some v }

/-- `respond v`: the operation's one response is handed to the host (30_encoding.md R90). -/
def respond (r : Response) (s : State) : State := { s with responses := s.responses ++ [r] }

/-- Set the sequencing state (10_state.md R27). -/
def setSeq (q : Seq) (s : State) : State := { s with seq := q }

/-- `raise E`, the one way an exception is taken (60_exceptions.md R193): the operation ends with `Err(E)` in the place
of its result and nothing else changes. Nothing is saved and there is no handler, so there is no return (R198). -/
def raise (e : ValidationError) (s : State) : State := respond (.err e) s

/-- The reset event (70_reset_and_hazards.md R220): `ACC` holds no value and no operation is in progress; the one it
abandons gives no response. What the host has not yet had taken, and the responses it already has, are the host's.
Log entry 10 (DESIGN CHOICE). -/
def takeReset (s : State) : State := { s with acc := none, seq := .idle }

/-- The host sends one more input (20_memory.md R66). -/
def present (i : HostInput) (s : State) : State := { s with inputs := s.inputs ++ [i] }

/-! ### Bytes and the header space (20_memory.md R50, R60) -/

/-- `be_n(v)`: the n bytes of v, most significant first (00_scope.md R9). -/
def be {w : Nat} (n : Nat) (v : BitVec w) : List Byte :=
  (List.range n).map fun j => v.extractLsb' (8 * (n - 1 - j)) 8

/-- `frombe(s)`, the number a byte sequence denotes (00_scope.md R9). -/
def frombe (s : List Byte) : Nat := s.foldl (fun n b => n * 256 + b.toNat) 0

/-- The byte at an offset, if one has been written. -/
def memRead (m : Memory) (a : Nat) : Option Byte :=
  match m with
  | [] => none
  | c :: m => if c.1 = a then some c.2 else memRead m a

/-- Store one byte, keeping the offsets strictly rising. -/
def memWrite (m : Memory) (a : Nat) (b : Byte) : Memory :=
  match m with
  | [] => [(a, b)]
  | c :: m => if a < c.1 then (a, b) :: c :: m else if a = c.1 then (a, b) :: m else c :: memWrite m a b

/-- `MemWrite(HDR, o, n, s)` with a byte sequence: s[j] at offset o + j (00_scope.md R10). -/
def storeBytes (m : Memory) (o : Nat) (bs : List Byte) : Memory :=
  match bs with
  | [] => m
  | b :: bs => storeBytes (memWrite m o b) (o + 1) bs

/-- The canonical form: offsets strictly rising and inside the header's 64. -/
def Memory.wf (m : Memory) : Bool :=
  decide (m.Pairwise fun c d => c.1 < d.1) && m.all fun c => decide (c.1 < Config.hdrSize)

/-- `wr_u64(o, v)` (41_header_builder.md R160). -/
def wrU64 (o : Nat) (v : U64) (m : Memory) : Memory := storeBytes m o (be 8 v)

/-- `wr_u32(o, v)` (R161). -/
def wrU32 (o : Nat) (v : U32) (m : Memory) : Memory := storeBytes m o (be 4 v)

/-- `wr_u16(o, v)` (R162). -/
def wrU16 (o : Nat) (v : U16) (m : Memory) : Memory := storeBytes m o (be 2 v)

/-- `wr_u8(o, v)` (R163). -/
def wrU8 (o : Nat) (v : Byte) (m : Memory) : Memory := storeBytes m o (be 1 v)

/-- `wr_raw47(o, s)` (R164). -/
def wrRaw47 (o : Nat) (bs : List Byte) (m : Memory) : Memory := storeBytes m o bs

/-- `HDR[0 .. 63]`: the bytes written at the header's offsets, in order. -/
def headerBytes (m : Memory) : List Byte := (List.range Config.hdrSize).filterMap (memRead m)

end Sys2Proof.Machine
end

