-- ==== Sys2Proof/Machine/Crc.lean ====
section
/-! DEFINITION. The checksum engine CE and its six operations (40_checksum_engine.md). -/

namespace Sys2Proof.Machine

/-! ### The steps on the accumulator -/

/-- The high-byte XOR (R121). -/
def xorByte (a : U32) (b : Byte) : U32 := a ^^^ byteOperand b

/-- One round of the shift register (R122): the test is on the value before the shift. -/
def round (a : U32) : U32 := if topBit a then (a <<< 1) ^^^ Config.poly else a <<< 1

/-- k rounds. -/
def rounds (k : Nat) (a : U32) : U32 :=
  match k with
  | 0 => a
  | k + 1 => rounds k (round a)

/-- Absorb one byte: the high-byte XOR, then 8 rounds (R123). -/
def byteStep (a : U32) (b : Byte) : U32 := rounds Config.rounds (xorByte a b)

/-- Absorb a byte sequence in ascending index order (R125, 20_memory.md R51). -/
def absorb (a : U32) (data : List Byte) : U32 := data.foldl byteStep a

/-- The checksum an accumulator stands for: its complement (R124). -/
def finalOf (a : U32) : U32 := ~~~a

/-- `compute_checksum(bytes)` as the source's function (30_encoding.md R108). -/
def computeChecksum (data : List Byte) : U32 := finalOf (absorb Config.init data)

/-! ### The operations -/

/-- `CRC.INIT` (R120). -/
def execCrcInit (s : State) : Result := .next (respond .done (writeAcc Config.init s))

/-- `CRC.XORB b` (R121). -/
def execCrcXorb (b : Byte) (s : State) : Result :=
  withAcc s fun a => .next (respond .done (writeAcc (xorByte a b) s))

/-- `CRC.ROUND` (R122). -/
def execCrcRound (s : State) : Result := withAcc s fun a => .next (respond .done (writeAcc (round a) s))

/-- `CRC.BYTE b` (R123). -/
def execCrcByte (b : Byte) (s : State) : Result :=
  withAcc s fun a => .next (respond .done (writeAcc (byteStep a b) s))

/-- `CRC.FINAL` (R124): `ACC` is left unchanged (D12; log entry 12 (UNVERIFIED)). -/
def execCrcFinal (s : State) : Result := withAcc s fun a => .next (respond (.checksum (finalOf a)) s)

/-- `CRC.COMPUTE data` (R125): never reads the old `ACC`, and leaves the value before the complement (D12; log
entry 12 (UNVERIFIED)). -/
def execCrcCompute (data : List Byte) (s : State) : Result :=
  .next (respond (.checksum (computeChecksum data)) (writeAcc (absorb Config.init data) s))

end Sys2Proof.Machine
end

