-- ==== Sys2Proof/Machine/Header.lean ====
section
/-! DEFINITION. The header builder HB and its one operation (41_header_builder.md). Stages 1 and 3 are in Operands. -/

namespace Sys2Proof.Machine

/-! ### Stage 2: check (R153) -/

/-- The bound check of a scalar field: the error it raises, if it fails (R154 to R156). -/
def checkField (r : Resolved) (f : Field) : Option ValidationError :=
  if inRange fieldLo (fieldHi f) (r.field f) then none else some (.outOfRangeField f fieldLo (fieldHi f))

/-- The bound check of one reserved element. -/
def checkElement (i : Nat) (x : Int) : Option ValidationError :=
  if inRange fieldLo elementHi x then none else some (.outOfRangeReservedElement i fieldLo elementHi)

/-- The reserved elements in ascending index, from index i (R157): the first failure ends the check. -/
def checkElements (i : Nat) (res : List Int) : Option ValidationError :=
  match res with
  | [] => none
  | x :: rest =>
    match checkElement i x with
    | some e => some e
    | none => checkElements (i + 1) rest

/-- The checks in their order, failing fast (R153, 60_exceptions.md R194). -/
def firstViolation (r : Resolved) : Option ValidationError :=
  match checkField r .deviceType with
  | some e => some e
  | none =>
    match checkField r .dataType with
    | some e => some e
    | none =>
      match checkField r .protocolType with
      | some e => some e
      | none => checkElements 0 r.res

/-! ### Stage 4: serialise (R159) -/

/-- The constant offset of each field (20_memory.md R60, 30_encoding.md R84). -/
def HdrField.offset (f : HdrField) : Nat :=
  match f with
  | .expectedSize => Config.offExpectedSize
  | .expectedCrc => Config.offExpectedCrc
  | .deviceType => Config.offDeviceType
  | .dataType => Config.offDataType
  | .protocolType => Config.offProtocolType
  | .reserved => Config.offReserved

/-- The store primitive of one field, at its offset. -/
def storeField (len : U64) (crc : U32) (r : Resolved) (res47 : List Byte) (f : HdrField) (m : Memory) : Memory :=
  match f with
  | .expectedSize => wrU64 (HdrField.offset .expectedSize) len m
  | .expectedCrc => wrU32 (HdrField.offset .expectedCrc) crc m
  | .deviceType => wrU16 (HdrField.offset .deviceType) (toU16 r.dev) m
  | .dataType => wrU8 (HdrField.offset .dataType) (toU8 r.dat) m
  | .protocolType => wrU16 (HdrField.offset .protocolType) (toU16 r.pro) m
  | .reserved => wrRaw47 (HdrField.offset .reserved) res47 m

/-- The layout order of the six stores. -/
def HdrField.next (f : HdrField) : Option HdrField :=
  match f with
  | .expectedSize => some .expectedCrc
  | .expectedCrc => some .deviceType
  | .deviceType => some .dataType
  | .dataType => some .protocolType
  | .protocolType => some .reserved
  | .reserved => none

/-- The stores of the given fields, one after the other, into an empty header space. -/
def storeFields (len : U64) (crc : U32) (r : Resolved) (res47 : List Byte) (fs : List HdrField) : Memory :=
  fs.foldl (fun m f => storeField len crc r res47 f m) []

/-- The fields that stand before one in layout order. -/
def HdrField.before (f : HdrField) : List HdrField :=
  match f with
  | .expectedSize => []
  | .expectedCrc => [.expectedSize]
  | .deviceType => [.expectedSize, .expectedCrc]
  | .dataType => [.expectedSize, .expectedCrc, .deviceType]
  | .protocolType => [.expectedSize, .expectedCrc, .deviceType, .dataType]
  | .reserved => [.expectedSize, .expectedCrc, .deviceType, .dataType, .protocolType]

/-- `ser64`: the six stores into an empty header space, in layout order. -/
def ser64 (len : U64) (crc : U32) (r : Resolved) (res47 : List Byte) : Memory :=
  storeFields len crc r res47 [.expectedSize, .expectedCrc, .deviceType, .dataType, .protocolType, .reserved]

/-- "assert len(HDR) = 64" and the `Ok` response (R159, R165). -/
def deliverHeader (m : Memory) (s : State) : Result :=
  if (headerBytes m).length = Config.hdrSize then .next (respond (.ok (headerBytes m)) s) else .fault .headerLength

/-- `build_header(length, checksum, metadata)` as the source's function (30_encoding.md R80, R108). -/
def buildHeader (len : U64) (crc : U32) (md : FirmwareMetadata) : Except ValidationError (List Byte) :=
  match firstViolation (resolve md) with
  | some e => .error e
  | none => .ok (headerBytes (ser64 len crc (resolve md) (norm47 (resolve md).res)))

/-- `HDR.BUILD` (R150): resolve, check, norm47, ser64. -/
def execHdrBuild (len : U64) (crc : U32) (md : FirmwareMetadata) (s : State) : Result :=
  match firstViolation (resolve md) with
  | some e => .next (raise e s)
  | none => deliverHeader (ser64 len crc (resolve md) (norm47 (resolve md).res)) s

end Sys2Proof.Machine
end

