-- ==== Sys2Proof/Machine/Dispatch.lean ====
section
/-! DEFINITION. The one dispatch: each operation of the opcode map (30_encoding.md R100) to its meaning. -/

namespace Sys2Proof.Machine

/-- Perform one operation, atomically as the host sees it (10_state.md R27, 20_memory.md R56). -/
def exec (i : Instr) (s : State) : Host.Outcome State Fault Refusal :=
  match i with
  | .crcInit => Sys2Proof.Machine.execCrcInit s
  | .crcXorb b => Sys2Proof.Machine.execCrcXorb b s
  | .crcRound => Sys2Proof.Machine.execCrcRound s
  | .crcByte b => Sys2Proof.Machine.execCrcByte b s
  | .crcFinal => Sys2Proof.Machine.execCrcFinal s
  | .crcCompute data => Sys2Proof.Machine.execCrcCompute data s
  | .hdrBuild len crc md => Sys2Proof.Machine.execHdrBuild len crc md s

end Sys2Proof.Machine
end

