-- ==== Sys2Proof/Machine/Sequencer.lean ====
section
/-! DEFINITION. The sequencing of CORE: the micro-steps inside one operation (10_state.md R27), how an operation is
taken from the host (20_memory.md R64), and runs of operations (70_reset_and_hazards.md R222). -/

namespace Sys2Proof.Machine

/-! ### Micro-steps (10_state.md R27) -/

/-- Start an operation: the three that have micro-steps enter their first phase; the others are one step. `CRC.BYTE`
issued while `ACC` holds no value is refused here, with no next state (10_state.md R23), as by `exec`. -/
def begin (i : Instr) (s : State) : Result :=
  match i with
  | .crcByte b => withAcc s fun _ => .next (setSeq (.byteXor b) s)
  | .crcCompute data => .next (setSeq (.computeInit data) s)
  | .hdrBuild len crc md => .next (setSeq (.buildResolve len crc md) s)
  | .crcInit => exec .crcInit s
  | .crcXorb b => exec (.crcXorb b) s
  | .crcRound => exec .crcRound s
  | .crcFinal => exec .crcFinal s

/-- The phase of `CRC.COMPUTE` that comes to byte i: its XOR step, or FINAL past the last byte. -/
def computePhase (data : List Byte) (i : Nat) : Seq :=
  if i < data.length then .computeXor data i else .computeFinal

/-- The phase of `HDR.BUILD` that comes to reserved element i: its check, or NORM past the last element. -/
def elementPhase (len : U64) (crc : U32) (r : Resolved) (i : Nat) : Seq :=
  if i < r.res.length then .buildCheckElement len crc r i else .buildNorm len crc r

/-- The phase after the check of a scalar field. -/
def afterCheck (len : U64) (crc : U32) (r : Resolved) (f : Field) : Seq :=
  match f with
  | .deviceType => .buildCheck len crc r .dataType
  | .dataType => .buildCheck len crc r .protocolType
  | .protocolType => elementPhase len crc r 0

/-- A check step's outcome: go on to phase q, or end the operation with the error ("a failing CHECK step goes straight
to done", R27). -/
def afterCheckStep (v : Option ValidationError) (q : Seq) (s : State) : Result :=
  match v with
  | some e => .next (raise e (setSeq .idle s))
  | none => .next (setSeq q s)

/-- One micro-step of the operation in progress; an idle machine has none to make. -/
def microStep (s : State) : Result :=
  match s.seq with
  | .idle => .next s
  | .byteXor b => withAcc s fun a => .next (setSeq (.byteShift 1) (writeAcc (xorByte a b) s))
  | .byteShift k =>
    withAcc s fun a =>
      if k < Config.rounds then .next (setSeq (.byteShift (k + 1)) (writeAcc (round a) s))
      else .next (respond .done (setSeq .idle (writeAcc (round a) s)))
  | .computeInit data => .next (setSeq (computePhase data 0) (writeAcc Config.init s))
  | .computeXor data i =>
    match data[i]? with
    | some b => withAcc s fun a => .next (setSeq (.computeShift data i 1) (writeAcc (xorByte a b) s))
    | none => .next (setSeq .computeFinal s)
  | .computeShift data i k =>
    withAcc s fun a =>
      if k < Config.rounds then .next (setSeq (.computeShift data i (k + 1)) (writeAcc (round a) s))
      else .next (setSeq (computePhase data (i + 1)) (writeAcc (round a) s))
  | .computeFinal => withAcc s fun a => .next (respond (.checksum (finalOf a)) (setSeq .idle s))
  | .buildResolve len crc md => .next (setSeq (.buildCheck len crc (resolve md) .deviceType) s)
  | .buildCheck len crc r f => afterCheckStep (checkField r f) (afterCheck len crc r f) s
  | .buildCheckElement len crc r i =>
    match r.res[i]? with
    | some x => afterCheckStep (checkElement i x) (elementPhase len crc r (i + 1)) s
    | none => .next (setSeq (.buildNorm len crc r) s)
  | .buildNorm len crc r => .next (setSeq (.buildSer len crc r (norm47 r.res) .expectedSize []) s)
  | .buildSer len crc r res47 f m =>
    match f.next with
    | some f' => .next (setSeq (.buildSer len crc r res47 f' (storeField len crc r res47 f m)) s)
    | none => deliverHeader (storeField len crc r res47 f m) (setSeq .idle s)

/-- n micro-steps; once the operation is done the rest are idle. -/
def microRun (n : Nat) (s : State) : Result :=
  match n with
  | 0 => .next s
  | n + 1 => andThen (microStep s) (microRun n)

/-- The stores of `ser64` from field f on. -/
def storesLeft (f : HdrField) : Nat :=
  match f with
  | .expectedSize => 6
  | .expectedCrc => 5
  | .deviceType => 4
  | .dataType => 3
  | .protocolType => 2
  | .reserved => 1

/-- Enough micro-steps to end the operation in progress (the counts of 40_checksum_engine.md R138 and
41_header_builder.md R169). -/
def Seq.stepsLeft (q : Seq) : Nat :=
  match q with
  | .idle => 0
  | .byteXor _ => 9
  | .byteShift k => 9 - k + 1
  | .computeInit data => 2 + 9 * data.length
  | .computeXor data i => 9 * (data.length - i) + 2
  | .computeShift data i k => 9 - k + 1 + 9 * (data.length - (i + 1)) + 2
  | .computeFinal => 1
  | .buildResolve _ _ md => 11 + (resolve md).res.length
  | .buildCheck _ _ r f => r.res.length + 7 + (match f with | .deviceType => 3 | .dataType => 2 | .protocolType => 1)
  | .buildCheckElement _ _ r i => r.res.length - i + 8
  | .buildNorm _ _ _ => 7
  | .buildSer _ _ _ _ f _ => storesLeft f

/-- Run the operation in progress to its end ("runs to completion or fails outright", 20_memory.md R64). -/
def finish (s : State) : Result := microRun s.seq.stepsLeft s

/-! ### Taking the host's next input -/

/-- Decode a request and start it; one that is no operation is refused by name (60_exceptions.md R207). -/
def takeRequest (start : Instr → State → Result) (r : Request) (s : State) : Result :=
  match decode r with
  | .ok i => start i s
  | .error e => .refused (.undecodable e)

/-- One step of the machine, given how an operation is started and how one in progress is carried on. Reset takes
effect at once, an operation in progress or not (70_reset_and_hazards.md R220); an operation is taken only when none is
in progress (20_memory.md R64); with nothing to do the machine stays as it is (log entry 4 (DESIGN CHOICE)). -/
def advance (start : Instr → State → Result) (carryOn : State → Result) (s : State) : Result :=
  match s.inputs with
  | .reset :: rest => .next (takeReset { s with inputs := rest })
  | .issue r :: rest =>
    match s.seq with
    | .idle => takeRequest start r { s with inputs := rest }
    | _ => carryOn s
  | [] => carryOn s

/-- One tick of the machine that steps per micro-step (10_state.md R27). -/
def tick (s : State) : Result := advance begin microStep s

/-- n ticks. -/
def tickRun (n : Nat) (s : State) : Result :=
  match n with
  | 0 => .next s
  | n + 1 => andThen (tick s) (tickRun n)

/-! ### Runs of operations -/

/-- The operations of a list in order, one after the other's response (70_reset_and_hazards.md R222). -/
def runOps (is : List Instr) (s : State) : Result :=
  match is with
  | [] => .next s
  | i :: is => andThen (exec i s) (runOps is)

/-- The expansion of an operation into others (30_encoding.md R109); one without an expansion is its own. -/
def expand (i : Instr) : List Instr :=
  match i with
  | .crcByte b => .crcXorb b :: List.replicate Config.rounds .crcRound
  | .crcCompute data => .crcInit :: (data.map Instr.crcByte ++ [.crcFinal])
  | .crcInit => [.crcInit]
  | .crcXorb b => [.crcXorb b]
  | .crcRound => [.crcRound]
  | .crcFinal => [.crcFinal]
  | .hdrBuild len crc md => [.hdrBuild len crc md]

/-- The operation gives `ACC` its value without reading it (10_state.md R21). -/
def initialises (i : Instr) : Bool :=
  match i with
  | .crcInit => true
  | .crcCompute _ => true
  | .crcXorb _ => false
  | .crcRound => false
  | .crcByte _ => false
  | .crcFinal => false
  | .hdrBuild _ _ _ => false

/-- The operation reads the value `ACC` holds when it is issued (R21), so it needs one (R23). -/
def needsAcc (i : Instr) : Bool :=
  match i with
  | .crcXorb _ => true
  | .crcRound => true
  | .crcByte _ => true
  | .crcFinal => true
  | .crcInit => false
  | .crcCompute _ => false
  | .hdrBuild _ _ _ => false

end Sys2Proof.Machine
end

