-- ==== Sys2Proof/Machine/Step.lean ====
section
/-! DEFINITION. One step of CORE at the granularity the host sees: one whole operation (20_memory.md R56, R64). -/

namespace Sys2Proof.Machine

/-- Take the host's next input and perform it; an operation found in progress is first run to its end (10_state.md
R27). -/
def step (s : State) : Host.Outcome State Fault Refusal := advance exec finish s

/-- The state in which the very next step takes the given command word, its record all zero: no operation is in
progress and the host has issued that request first. CORE fetches nothing (10_state.md R26). Log entry 2 (DESIGN CHOICE). -/
def State.withFetchWord (s : State) (nbits w : Nat) : State :=
  { s with seq := .idle, inputs := .issue (wordRequest nbits w) :: s.inputs }

end Sys2Proof.Machine
end

