-- ==== Sys2Proof/Machine/Copies.lean ====
section
/-! DEFINITION. Independent copies of CORE (60_exceptions.md R206): the product of k machines, each with its own state
and nothing shared. -/

namespace Sys2Proof.Machine

/-- The states of k copies. -/
abbrev Copies := List State

/-- Copy i makes one step; the others stay as they are. -/
def stepCopy (cs : Copies) (i : Fin cs.length) : Host.Outcome Copies Fault Refusal :=
  match step cs[i] with
  | .next t => .next (cs.set i t)
  | .fault f => .fault f
  | .refused r => .refused r

end Sys2Proof.Machine
end

