-- ==== Sys2Proof/Machine/CrcForms.lean ====
section
/-! DEFINITION. The other forms the spec gives the steps of CE (40_checksum_engine.md R131 to R133): single bits, one
message bit at a time, and the table. The meanings do not use them; statements say that they are equal. -/

namespace Sys2Proof.Machine

/-- The feedback taps: the bit positions of POLY that are 1 (R131). -/
def taps : List Nat := [0, 1, 2, 4, 5, 7, 8, 10, 11, 12, 16, 22, 23, 26]

/-- Bit i after one round, in the Galois shift register form (R131). -/
def galoisBit (a : U32) (i : Nat) : Bool :=
  match i with
  | 0 => topBit a && Config.poly.getLsbD 0
  | i + 1 => a.getLsbD i ^^ (topBit a && Config.poly.getLsbD (i + 1))

/-- The value before a round, from the value after it (R131: a round is a bijection). -/
def unround (a : U32) : U32 :=
  if a.getLsbD 0 then ((a ^^^ Config.poly) >>> 1) ||| 0x80000000#32 else a >>> 1

/-- One message bit into the register (R132). -/
def serialBit (a : U32) (m : Bool) : U32 :=
  (a <<< 1) ^^^ (if topBit a ^^ m then Config.poly else 0#32)

/-- One byte, its most significant bit first, in the message-bit-serial form (R132). -/
def serialByte (a : U32) (b : Byte) : U32 :=
  [7, 6, 5, 4, 3, 2, 1, 0].foldl (fun a j => serialBit a (b.getLsbD j)) a

/-- `T[v]` (R133): eight rounds of `v << 24`. -/
def tableEntry (v : Byte) : U32 := byteStep 0#32 v

/-- One byte in the table form (R133). -/
def tableByte (a : U32) (b : Byte) : U32 := (a <<< 8) ^^^ tableEntry (a.extractLsb' 24 8 ^^^ b)

end Sys2Proof.Machine
end

