-- ==== Sys2Proof/Machine/Image.lean ====
section
/-! DEFINITION. What stands around CORE: reading a header back (20_memory.md R53), the header as one vector
(30_encoding.md R85), the image the host assembles (20_memory.md R62), what its consumer checks
(70_reset_and_hazards.md R233), and the numeric response codes (30_encoding.md R92). No operation uses them. -/

namespace Sys2Proof.Machine

/-! ### Reading a header -/

/-- The n bytes from offset o on. -/
def slice (o n : Nat) (h : List Byte) : List Byte := (h.drop o).take n

/-- The header's fields as numbers and bytes (R53). -/
structure HeaderFields where
  expectedSize : Nat
  expectedCrc  : Nat
  deviceType   : Nat
  dataType     : Nat
  protocolType : Nat
  reserved     : List Byte
  deriving DecidableEq, Repr

/-- A header parsed back, big-endian, by the layout table (R53). -/
def readHeader (h : List Byte) : HeaderFields :=
  ⟨frombe (slice 0 8 h), frombe (slice 8 4 h), frombe (slice 12 2 h), frombe (slice 14 1 h), frombe (slice 15 2 h),
   slice 17 47 h⟩

/-- The header as the vector `H[511:0]` (30_encoding.md R85). -/
def headerVector (h : List Byte) : BitVec 512 := BitVec.ofNat 512 (frombe h)

/-! ### The image -/

/-- `IMG.PACK h, payload` (30_encoding.md R109; 20_memory.md R62). -/
def imgPack (h payload : List Byte) : List Byte := h ++ payload

/-- What a consumer checks: the checksum over `IMG[64 ..]` against the header's `expected_crc` (R233). R62 and R233 speak
of images of at least 64 bytes only, so fewer bytes get no verdict. Log entry 21 (DESIGN CHOICE). -/
def consumerVerdict (img : List Byte) : Option Bool :=
  if Config.hdrSize ≤ img.length then
    some ((computeChecksum (img.drop Config.hdrSize)).toNat == (readHeader img).expectedCrc)
  else none

/-- The source's own use (70_reset_and_hazards.md R222): checksum, header, image. Log entry 20 (DEDUCED). A payload of 2^64 bytes or more has
no `payload_length` and so no image (92_eei_decisions.md D6). -/
def packImage (payload : List Byte) (md : FirmwareMetadata) : Option (Except ValidationError (List Byte)) :=
  if payload.length < 2 ^ 64 then
    match buildHeader (BitVec.ofNat 64 payload.length) (computeChecksum payload) md with
    | .ok h => some (.ok (imgPack h payload))
    | .error e => some (.error e)
  else none

/-! ### Numeric codes (R92) -/

/-- `status`: 0 is `Ok` or `done`, 1 is `Err`. That a checksum's status is 0 too is read from R90, by which it is no
error; R92 does not name it. Log entry 20 (DEDUCED). -/
def Response.status (r : Response) : Nat :=
  match r with
  | .done => 0
  | .checksum _ => 0
  | .ok _ => 0
  | .err _ => 1

/-- `kind` of an error; 0 stands for none, for every response that carries no error. Log entry 20 (DEDUCED). -/
def Response.kind (r : Response) : Nat :=
  match r with
  | .err (.outOfRangeField _ _ _) => 1
  | .err (.outOfRangeReservedElement _ _ _) => 2
  | .done => 0
  | .checksum _ => 0
  | .ok _ => 0

/-- `field`, in the order of the checks. -/
def Field.code (f : Field) : Nat :=
  match f with
  | .deviceType => 0
  | .dataType => 1
  | .protocolType => 2

/-- The field's name as an error carries it (30_encoding.md R93). -/
def Field.name (f : Field) : String :=
  match f with
  | .deviceType => "device_type"
  | .dataType => "data_type"
  | .protocolType => "protocol_type"

end Sys2Proof.Machine
end

