-- ==== Sys2Proof/Safety.lean ====
section
/-! DEFINITION. What claims call a sound state and a sound run: the form of the responses (30_encoding.md R90, R92), the
phases an operation can be in (10_state.md R27, 20_memory.md R56), and which runs find `ACC` written (R23). -/

namespace Sys2Proof.Machine

/-- An error as one of the four causes records it (60_exceptions.md R191). -/
def ValidationError.wf (e : ValidationError) : Prop :=
  match e with
  | .outOfRangeField f lo hi => lo = 0 ∧ hi = fieldHi f
  | .outOfRangeReservedElement _ lo hi => lo = 0 ∧ hi = 255

/-- A response as R90 allows it: an `Ok` carries 64 bytes, an `Err` an error of R191. -/
def Response.wf (r : Response) : Prop :=
  match r with
  | .done => True
  | .checksum _ => True
  | .ok h => h.length = 64
  | .err e => e.wf

/-- The checks before the one of field f have passed. -/
def passedBefore (r : Resolved) (f : Field) : Prop :=
  match f with
  | .deviceType => True
  | .dataType => checkField r .deviceType = none
  | .protocolType => checkField r .deviceType = none ∧ checkField r .dataType = none

/-- All three scalar checks have passed. -/
def scalarsPassed (r : Resolved) : Prop := ∀ f, checkField r f = none

/-- The phase is one the sequence of R27 can be in: the indices are in range, `ACC` holds a value where the operation
has written it or will read it, every check has passed before the header is stored (R56), and `HDR` holds exactly what
the stores of the fields before the next one leave. -/
def Seq.wf (q : Seq) (acc : Option U32) : Prop :=
  match q with
  | .idle => True
  | .byteXor _ => acc ≠ none
  | .byteShift k => 1 ≤ k ∧ k ≤ 8 ∧ acc ≠ none
  | .computeInit _ => True
  | .computeXor data i => i < data.length ∧ acc ≠ none
  | .computeShift data i k => i < data.length ∧ 1 ≤ k ∧ k ≤ 8 ∧ acc ≠ none
  | .computeFinal => acc ≠ none
  | .buildResolve _ _ _ => True
  | .buildCheck _ _ r f => passedBefore r f
  | .buildCheckElement _ _ r i =>
    i < r.res.length ∧ scalarsPassed r ∧ ∀ x ∈ r.res.take i, inRange 0 255 x = true
  | .buildNorm _ _ r => firstViolation r = none
  | .buildSer len crc r res47 f m =>
    firstViolation r = none ∧ res47 = norm47 r.res ∧ m = storeFields len crc r res47 f.before

/-- The invariant: every response given is well formed, and so is the phase. -/
def State.Inv (s : State) : Prop := (∀ r ∈ s.responses, r.wf) ∧ s.seq.wf s.acc

/-- A run of operations never reads `ACC` while it holds no value (10_state.md R23, 70_reset_and_hazards.md R221);
`held` says whether it holds one at the start. -/
def initialisedRun (held : Bool) (is : List Instr) : Bool :=
  match is with
  | [] => true
  | i :: is => (held || !(needsAcc i)) && initialisedRun (held || initialises i) is

end Sys2Proof.Machine
end

