-- ==== Sys2Proof/Certificates/Slice0/Obligations.lean ====
section
/-! DEFINITION. The statements for the provers, from the spec's numbered rules. -/

open Sys2Proof Sys2Proof.Machine

/-! ### The checksum engine's operations (40_checksum_engine.md section 1) -/

/-- R120, whole: `CRC.INIT`, its encoding, its effect in every state, and that issuing it twice is the same as once. -/
def Obligations.CrcInitLoadsTheInitialValue : Prop :=
  encode .crcInit = ⟨0x0100#16, .absent⟩ ∧ decode ⟨0x0100#16, .absent⟩ = .ok .crcInit ∧
  ∀ s : State,
    exec .crcInit s = .next { s with acc := some 0xFFFFFFFF#32, responses := s.responses ++ [.done] } ∧
    ∃ t u, exec .crcInit s = .next t ∧ exec .crcInit t = .next u ∧ u.acc = t.acc

/-- R121, whole: `CRC.XORB b`. The spec derives the last clause but one (the operation is its own inverse) itself. -/
def Obligations.CrcXorbXorsTheHighByte : Prop :=
  ∀ (b : Byte) (s : State),
    encode (.crcXorb b) = ⟨0x0200#16 ||| b.setWidth 16, .absent⟩ ∧
    decode ⟨0x0200#16 ||| b.setWidth 16, .absent⟩ = .ok (.crcXorb b) ∧
    (s.acc = none → exec (.crcXorb b) s = .refused .accUnwritten) ∧
    ∀ a, s.acc = some a →
      ∃ a', a' = a ^^^ (b.setWidth 32 <<< 24) ∧
        exec (.crcXorb b) s = .next { s with acc := some a', responses := s.responses ++ [.done] } ∧
        a'.extractLsb' 24 8 = a.extractLsb' 24 8 ^^^ b ∧ a'.extractLsb' 0 24 = a.extractLsb' 0 24 ∧
        (b = 0 → a' = a) ∧
        (∃ t, runOps [.crcXorb b, .crcXorb b] s = .next t ∧ t.acc = some a) ∧
        (a = 0xFFFFFFFF#32 → b = 0x31#8 → a' = 0xCEFFFFFF#32)

/-- R122, whole: `CRC.ROUND`, its encoding, its two data paths, and the values the rule lists. -/
def Obligations.CrcRoundShiftsAndFeedsBack : Prop :=
  encode .crcRound = ⟨0x0300#16, .absent⟩ ∧ decode ⟨0x0300#16, .absent⟩ = .ok .crcRound ∧
  ∀ s : State,
    (s.acc = none → exec .crcRound s = .refused .accUnwritten) ∧
    (∀ a, s.acc = some a →
      exec .crcRound s =
        .next { s with acc := some (if a.getLsbD 31 then (a <<< 1) ^^^ 0x04C11DB7#32 else a <<< 1),
                       responses := s.responses ++ [.done] }) ∧
    ∀ p ∈ [(0x00000000#32, 0x00000000#32), (0x80000000#32, 0x04C11DB7#32), (0x7FFFFFFF#32, 0xFFFFFFFE#32),
           (0xFFFFFFFF#32, 0xFB3EE249#32), (0x40000000#32, 0x80000000#32), (0x82608EDB#32, 0x00000001#32),
           (0xCEFFFFFF#32, 0x993EE249#32)],
      s.acc = some p.1 →
        exec .crcRound s = .next { s with acc := some p.2, responses := s.responses ++ [.done] }

/-- R123, whole: `CRC.BYTE b`, its encoding, the high-byte XOR and eight rounds, its equality with `CRC.XORB b` and
eight `CRC.ROUND` (which the spec derives), and the values the rule lists. -/
def Obligations.CrcByteAbsorbsOneByte : Prop :=
  ∀ (b : Byte) (s : State),
    encode (.crcByte b) = ⟨0x0400#16 ||| b.setWidth 16, .absent⟩ ∧
    decode ⟨0x0400#16 ||| b.setWidth 16, .absent⟩ = .ok (.crcByte b) ∧
    (s.acc = none → exec (.crcByte b) s = .refused .accUnwritten) ∧
    ∀ a, s.acc = some a →
      ∃ a', a' = (fun x : U32 => if x.getLsbD 31 then (x <<< 1) ^^^ 0x04C11DB7#32 else x <<< 1)^[8]
                   (a ^^^ (b.setWidth 32 <<< 24)) ∧
        exec (.crcByte b) s = .next { s with acc := some a', responses := s.responses ++ [.done] } ∧
        (∃ t, runOps (.crcXorb b :: List.replicate 8 .crcRound) s = .next t ∧ t.acc = some a') ∧
        ∀ p ∈ [(0x00000000#32, 0x00#8, 0x00000000#32), (0x00000000#32, 0x01#8, 0x04C11DB7#32),
               (0x00000000#32, 0x80#8, 0x690CE0EE#32), (0x00000000#32, 0xFF#8, 0xB1F740B4#32),
               (0xFFFFFFFF#32, 0x00#8, 0x4E08BFB4#32), (0xFFFFFFFF#32, 0xFF#8, 0xFFFFFF00#32),
               (0xFF000000#32, 0xFF#8, 0x00000000#32), (0xFFFFFFFF#32, 0x31#8, 0x9EFBCF93#32)],
          a = p.1 → b = p.2.1 → a' = p.2.2

/-- R124, whole: `CRC.FINAL`, its encoding, its response, `ACC` left as it was, so that a second one responds the same
and a following `CRC.BYTE` continues the same message. -/
def Obligations.CrcFinalDeliversTheComplement : Prop :=
  encode .crcFinal = ⟨0x0500#16, .absent⟩ ∧ decode ⟨0x0500#16, .absent⟩ = .ok .crcFinal ∧
  ∀ s : State,
    (s.acc = none → exec .crcFinal s = .refused .accUnwritten) ∧
    ∀ a, s.acc = some a →
      exec .crcFinal s = .next { s with responses := s.responses ++ [.checksum (a ^^^ 0xFFFFFFFF#32)] } ∧
      runOps [.crcFinal, .crcFinal] s =
        .next { s with responses := s.responses ++
                         [.checksum (a ^^^ 0xFFFFFFFF#32), .checksum (a ^^^ 0xFFFFFFFF#32)] } ∧
      (∀ b, ∃ t u, runOps [.crcFinal, .crcByte b] s = .next t ∧ exec (.crcByte b) s = .next u ∧ t.acc = u.acc) ∧
      ∀ p ∈ [(0xFFFFFFFF#32, 0x00000000#32), (0x00000000#32, 0xFFFFFFFF#32), (0x0376E6E7#32, 0xFC891918#32)],
        a = p.1 → a ^^^ 0xFFFFFFFF#32 = p.2

/-- R125, whole: `CRC.COMPUTE data` on every byte sequence and in every state, with the checksums the rule lists. -/
def Obligations.CrcComputeIsTheChecksum : Prop :=
  ∀ (data : List Byte) (s : State),
    encode (.crcCompute data) = ⟨0x0600#16, .payload data⟩ ∧
    decode ⟨0x0600#16, .payload data⟩ = .ok (.crcCompute data) ∧
    ∃ a, a = data.foldl
               (fun (y : U32) (b : Byte) => (fun x : U32 => if x.getLsbD 31 then (x <<< 1) ^^^ 0x04C11DB7#32 else x <<< 1)^[8]
                 (y ^^^ (b.setWidth 32 <<< 24))) 0xFFFFFFFF#32 ∧
      exec (.crcCompute data) s =
        .next { s with acc := some a, responses := s.responses ++ [.checksum (a ^^^ 0xFFFFFFFF#32)] } ∧
      (data = [] → a = 0xFFFFFFFF#32) ∧
      ∀ p ∈ [([], 0x00000000#32), ([0x00#8], 0xB1F7404B#32), ([0x00#8, 0x00#8, 0x00#8, 0x00#8], 0x38FB2284#32),
             ([0x31#8, 0x32#8, 0x33#8, 0x34#8, 0x35#8, 0x36#8, 0x37#8, 0x38#8, 0x39#8], 0xFC891918#32),
             ([0x01#8, 0x02#8, 0x03#8, 0x04#8, 0x05#8], 0x1D70B47C#32)],
        data = p.1 → a ^^^ 0xFFFFFFFF#32 = p.2

/-! ### The header builder's operation (41_header_builder.md) -/

/-- R60 and R88, for every build whose resolved fields are in range: the build completes in every state, and which byte
of which operand stands at each of the 64 offsets; nothing but the response changes. -/
def Obligations.HdrBuildLaysOutTheHeader : Prop :=
  ∀ (s : State) (len : U64) (crc : U32) (md : FirmwareMetadata) (dev dat pro : Int) (res : List Int),
    dev = md.deviceType.getD 65535 → dat = md.dataType.getD 255 → pro = md.protocolType.getD 65535 →
    res = md.reserved.getD [] →
    0 ≤ dev → dev ≤ 65535 → 0 ≤ dat → dat ≤ 255 → 0 ≤ pro → pro ≤ 65535 → (∀ x ∈ res, 0 ≤ x ∧ x ≤ 255) →
    exec (.hdrBuild len crc md) s =
      .next { s with responses := s.responses ++ [.ok (
        [len.extractLsb' 56 8, len.extractLsb' 48 8, len.extractLsb' 40 8, len.extractLsb' 32 8,
         len.extractLsb' 24 8, len.extractLsb' 16 8, len.extractLsb' 8 8, len.extractLsb' 0 8,
         crc.extractLsb' 24 8, crc.extractLsb' 16 8, crc.extractLsb' 8 8, crc.extractLsb' 0 8,
         (BitVec.ofInt 16 dev).extractLsb' 8 8, (BitVec.ofInt 16 dev).extractLsb' 0 8,
         BitVec.ofInt 8 dat,
         (BitVec.ofInt 16 pro).extractLsb' 8 8, (BitVec.ofInt 16 pro).extractLsb' 0 8] ++
        (res.map (fun x => BitVec.ofInt 8 x) ++ List.replicate 47 0x00#8).take 47)] }

/-- R154 to R157 and R194: which error a build raises, exactly when, and that the first failing check wins; raising it
is the operation's whole effect. -/
def Obligations.HdrBuildReportsTheFirstViolation : Prop :=
  ∀ (s : State) (len : U64) (crc : U32) (md : FirmwareMetadata) (dev dat pro : Int) (res : List Int),
    dev = md.deviceType.getD 65535 → dat = md.dataType.getD 255 → pro = md.protocolType.getD 65535 →
    res = md.reserved.getD [] →
    (exec (.hdrBuild len crc md) s =
        .next { s with responses := s.responses ++ [.err (.outOfRangeField .deviceType 0 65535)] } ↔
      (dev < 0 ∨ 65535 < dev)) ∧
    (exec (.hdrBuild len crc md) s =
        .next { s with responses := s.responses ++ [.err (.outOfRangeField .dataType 0 255)] } ↔
      (0 ≤ dev ∧ dev ≤ 65535) ∧ (dat < 0 ∨ 255 < dat)) ∧
    (exec (.hdrBuild len crc md) s =
        .next { s with responses := s.responses ++ [.err (.outOfRangeField .protocolType 0 65535)] } ↔
      (0 ≤ dev ∧ dev ≤ 65535) ∧ (0 ≤ dat ∧ dat ≤ 255) ∧ (pro < 0 ∨ 65535 < pro)) ∧
    ∀ i, (exec (.hdrBuild len crc md) s =
        .next { s with responses := s.responses ++ [.err (.outOfRangeReservedElement i 0 255)] } ↔
      (0 ≤ dev ∧ dev ≤ 65535) ∧ (0 ≤ dat ∧ dat ≤ 255) ∧ (0 ≤ pro ∧ pro ≤ 65535) ∧
        (∃ x, res[i]? = some x ∧ (x < 0 ∨ 255 < x)) ∧ ∀ j x, j < i → res[j]? = some x → 0 ≤ x ∧ x ≤ 255)

/-- R166: every build ends in `Ok` with 64 bytes or in `Err`, and the resolved metadata alone decide which. -/
def Obligations.HdrBuildSucceedsExactlyInRange : Prop :=
  ∀ (s : State) (len : U64) (crc : U32) (md : FirmwareMetadata),
    let inRanges := (0 ≤ md.deviceType.getD 65535 ∧ md.deviceType.getD 65535 ≤ 65535) ∧
      (0 ≤ md.dataType.getD 255 ∧ md.dataType.getD 255 ≤ 255) ∧
      (0 ≤ md.protocolType.getD 65535 ∧ md.protocolType.getD 65535 ≤ 65535) ∧
      ∀ x ∈ md.reserved.getD [], 0 ≤ x ∧ x ≤ 255
    (inRanges → ∃ h, h.length = 64 ∧
      exec (.hdrBuild len crc md) s = .next { s with responses := s.responses ++ [.ok h] }) ∧
    (¬ inRanges → ∃ e, ∀ (len' : U64) (crc' : U32) (s' : State),
      exec (.hdrBuild len' crc' md) s' = .next { s' with responses := s'.responses ++ [.err e] })

/-- R158: the reserved region of a successful build, byte by byte: supplied elements, then zeros; never more than 47;
and each supplied element's byte is exactly its value. -/
def Obligations.ReservedIsPaddedOrCutTo47 : Prop :=
  ∀ (s t : State) (len : U64) (crc : U32) (md : FirmwareMetadata) (h : List Byte),
    exec (.hdrBuild len crc md) s = .next t → t.responses = s.responses ++ [.ok h] →
    (h.drop 17).length = 47 ∧ norm47 (md.reserved.getD []) = h.drop 17 ∧
    ∀ j, j < 47 →
      h[17 + j]? = some (match (md.reserved.getD [])[j]? with | some x => BitVec.ofInt 8 x | none => 0x00#8) ∧
      ∀ x, (md.reserved.getD [])[j]? = some x → ((BitVec.ofInt 8 x).toNat : Int) = x

/-- R151 and R87: absent fields take their defaults, present ones (zero among them) their value; nothing is narrowed,
and an absent field never fails its check. -/
def Obligations.ResolveAppliesTheDefaults : Prop :=
  ∀ md : FirmwareMetadata,
    (resolve md).dev = (match md.deviceType with | some v => v | none => 65535) ∧
    (resolve md).dat = (match md.dataType with | some v => v | none => 255) ∧
    (resolve md).pro = (match md.protocolType with | some v => v | none => 65535) ∧
    (resolve md).res = (match md.reserved with | some vs => vs | none => []) ∧
    (md.deviceType = some 0 → (resolve md).dev = 0) ∧
    (md.deviceType = none → checkField (resolve md) .deviceType = none) ∧
    (md.dataType = none → checkField (resolve md) .dataType = none) ∧
    (md.protocolType = none → checkField (resolve md) .protocolType = none) ∧
    (md.reserved = none → checkElements 0 (resolve md).res = none)

/-- R193 and R198: a failed build changes nothing but that its error is handed to the host, and whatever operation comes
next behaves as if the build had not been issued. -/
def Obligations.FailedBuildLeavesNothingBehind : Prop :=
  ∀ (s t : State) (len : U64) (crc : U32) (md : FirmwareMetadata) (e : ValidationError),
    exec (.hdrBuild len crc md) s = .next t → t.responses = s.responses ++ [.err e] →
    t = { s with responses := s.responses ++ [.err e] } ∧
    ∀ i : Instr,
      (∀ u, exec i s = .next u → ∃ r, u.responses = s.responses ++ [r] ∧
        exec i t = .next { u with responses := t.responses ++ [r] }) ∧
      (∀ x, exec i s = .refused x → exec i t = .refused x)

/-- R160 to R164: each store primitive puts the bytes of its value, most significant first, at its offsets, leaves every
other offset as it was, and is used at the offset the rule gives. -/
def Obligations.StorePrimitivesAreBigEndian : Prop :=
  (∀ (m : Memory) (o a : Nat) (v : U64),
    memRead (wrU64 o v m) a =
      if o ≤ a ∧ a < o + 8 then some (v.extractLsb' (56 - 8 * (a - o)) 8) else memRead m a) ∧
  (∀ (m : Memory) (o a : Nat) (v : U32),
    memRead (wrU32 o v m) a =
      if o ≤ a ∧ a < o + 4 then some (v.extractLsb' (24 - 8 * (a - o)) 8) else memRead m a) ∧
  (∀ (m : Memory) (o a : Nat) (v : U16),
    memRead (wrU16 o v m) a =
      if o ≤ a ∧ a < o + 2 then some (v.extractLsb' (8 - 8 * (a - o)) 8) else memRead m a) ∧
  (∀ (m : Memory) (o a : Nat) (v : Byte),
    memRead (wrU8 o v m) a = if a = o then some v else memRead m a) ∧
  (∀ (m : Memory) (o a : Nat) (bs : List Byte), bs.length = 47 →
    memRead (wrRaw47 o bs m) a = if o ≤ a ∧ a < o + 47 then bs[a - o]? else memRead m a) ∧
  ∀ (len : U64) (crc : U32) (r : Resolved) (bs : List Byte) (m : Memory),
    storeField len crc r bs .expectedSize m = wrU64 0 len m ∧
    storeField len crc r bs .expectedCrc m = wrU32 8 crc m ∧
    storeField len crc r bs .deviceType m = wrU16 12 (BitVec.ofInt 16 r.dev) m ∧
    storeField len crc r bs .dataType m = wrU8 14 (BitVec.ofInt 8 r.dat) m ∧
    storeField len crc r bs .protocolType m = wrU16 15 (BitVec.ofInt 16 r.pro) m ∧
    storeField len crc r bs .reserved m = wrRaw47 17 bs m

/-- R53: parsing a built header back recovers the values supplied (after resolution). -/
def Obligations.BuiltHeaderReadsBack : Prop :=
  ∀ (s t : State) (len : U64) (crc : U32) (md : FirmwareMetadata) (h : List Byte),
    exec (.hdrBuild len crc md) s = .next t → t.responses = s.responses ++ [.ok h] →
    frombe (slice 0 8 h) = len.toNat ∧ frombe (slice 8 4 h) = crc.toNat ∧
    (frombe (slice 12 2 h) : Int) = md.deviceType.getD 65535 ∧
    (frombe (slice 14 1 h) : Int) = md.dataType.getD 255 ∧
    (frombe (slice 15 2 h) : Int) = md.protocolType.getD 65535 ∧
    ∀ j, j < 47 → h[17 + j]? = (norm47 (md.reserved.getD []))[j]?

/-- R167's last sentence, which the spec derives: two builds give the same header only for the same length, checksum,
scalars and 47 reserved bytes; the supplied sequence itself is not recovered. -/
def Obligations.HeadersDetermineTheirFields : Prop :=
  (∀ (s t s' t' : State) (len len' : U64) (crc crc' : U32) (md md' : FirmwareMetadata) (h : List Byte),
    exec (.hdrBuild len crc md) s = .next t → t.responses = s.responses ++ [.ok h] →
    exec (.hdrBuild len' crc' md') s' = .next t' → t'.responses = s'.responses ++ [.ok h] →
    len = len' ∧ crc = crc' ∧ (resolve md).dev = (resolve md').dev ∧ (resolve md).dat = (resolve md').dat ∧
      (resolve md).pro = (resolve md').pro ∧ norm47 (resolve md).res = norm47 (resolve md').res) ∧
  (∀ res : List Int, res.length < 47 → norm47 (res ++ [0]) = norm47 res) ∧
  ∀ (res : List Int) (x : Int), 47 ≤ res.length → norm47 (res ++ [x]) = norm47 res

/-- R85, which the spec derives: where each field of a built header stands in the vector `H[511:0]`. -/
def Obligations.HeaderVectorPlacesTheFields : Prop :=
  ∀ (s t : State) (len : U64) (crc : U32) (md : FirmwareMetadata) (h : List Byte),
    exec (.hdrBuild len crc md) s = .next t → t.responses = s.responses ++ [.ok h] →
    (∀ o, o < 64 → h[o]? = some ((headerVector h).extractLsb' (504 - 8 * o) 8)) ∧
    (headerVector h).extractLsb' 448 64 = len ∧ (headerVector h).extractLsb' 416 32 = crc ∧
    (headerVector h).extractLsb' 400 16 = BitVec.ofInt 16 (md.deviceType.getD 65535) ∧
    (headerVector h).extractLsb' 392 8 = BitVec.ofInt 8 (md.dataType.getD 255) ∧
    (headerVector h).extractLsb' 376 16 = BitVec.ofInt 16 (md.protocolType.getD 65535)

/-! ### State, reset and frames (10_state.md, 70_reset_and_hazards.md) -/

/-- R36: the state after reset. -/
def Obligations.ResetLeavesAccWithoutValue : Prop :=
  State.reset.acc = none ∧ State.reset.seq = .idle ∧ State.reset.responses = []

/-- R220: the reset event, at either granularity and with an operation in progress or not, leaves `ACC` without a value
and no operation in progress, gives no response, and nothing else takes the value of `ACC` away. -/
def Obligations.ResetEventClearsAccAndAbandons : Prop :=
  (∀ (s : State) (rest : List HostInput), s.inputs = .reset :: rest →
    (∃ t, step s = .next t ∧ t.acc = none ∧ t.seq = .idle ∧ t.responses = s.responses) ∧
    ∃ t, tick s = .next t ∧ t.acc = none ∧ t.seq = .idle ∧ t.responses = s.responses) ∧
  ∀ s t : State, step s = .next t ∨ tick s = .next t → s.acc ≠ none → t.acc = none →
    ∃ rest, s.inputs = .reset :: rest

/-- Reset takes one input and leaves the host's others (log entry 10: the model's choice). -/
def Obligations.ResetEventLeavesTheOtherInputs : Prop :=
  ∀ (s : State) (rest : List HostInput), s.inputs = .reset :: rest →
    step s = .next { s with acc := none, seq := .idle, inputs := rest } ∧ tick s = step s

/-- R23: after reset `ACC` holds no value; until `CRC.INIT` or `CRC.COMPUTE` it holds none, and the four operations that
read it are refused. -/
def Obligations.UnwrittenAccRefusesItsReaders : Prop :=
  State.reset.acc = none ∧
  ∀ s : State, s.acc = none →
    (∀ b, exec (.crcXorb b) s = .refused .accUnwritten) ∧ exec .crcRound s = .refused .accUnwritten ∧
    (∀ b, exec (.crcByte b) s = .refused .accUnwritten) ∧ exec .crcFinal s = .refused .accUnwritten ∧
    ∀ (i : Instr) (t : State), exec i s = .next t → t.acc ≠ none → i = .crcInit ∨ ∃ data, i = .crcCompute data

/-- R33: the two API operations respond the same whatever the state. -/
def Obligations.ApiOperationsArePure : Prop :=
  (∀ data : List Byte, ∃ v, ∀ s : State, ∃ t,
    exec (.crcCompute data) s = .next t ∧ t.responses = s.responses ++ [.checksum v]) ∧
  ∀ (len : U64) (crc : U32) (md : FirmwareMetadata),
    (∃ h, h.length = 64 ∧ ∀ s : State, ∃ t,
      exec (.hdrBuild len crc md) s = .next t ∧ t.responses = s.responses ++ [.ok h]) ∨
    ∃ e, ∀ s : State, ∃ t,
      exec (.hdrBuild len crc md) s = .next t ∧ t.responses = s.responses ++ [.err e]

/-- The frame of every operation (10_state.md R21, R31): `CRC.FINAL` and `HDR.BUILD` leave `ACC`, no operation touches
the sequencing state or the host's inputs, and each appends one response. -/
def Obligations.OperationsChangeOnlyAccAndRespond : Prop :=
  ∀ (i : Instr) (s t : State), exec i s = .next t →
    t.seq = s.seq ∧ t.inputs = s.inputs ∧ (∃ r, t.responses = s.responses ++ [r]) ∧
    (i = .crcFinal → t.acc = s.acc) ∧ (∀ len crc md, i = .hdrBuild len crc md → t.acc = s.acc)

/-- R90: each operation's one response and its form; no CE operation responds with an error. -/
def Obligations.EveryOperationRespondsOnce : Prop :=
  ∀ (i : Instr) (s t : State), exec i s = .next t →
    ∃ r, t.responses = s.responses ++ [r] ∧
      (match i with
       | .crcInit => r = .done
       | .crcXorb _ => r = .done
       | .crcRound => r = .done
       | .crcByte _ => r = .done
       | .crcFinal => ∃ v, r = .checksum v
       | .crcCompute _ => ∃ v, r = .checksum v
       | .hdrBuild _ _ _ => (∃ h, r = .ok h ∧ h.length = 64) ∨ ∃ e, r = .err e)

/-- What an operation reads is `ACC` and its operands, nothing else of the state (10_state.md R29, R31): from two states
with the same `ACC` it does the same. -/
def Obligations.OperationsReadOnlyAcc : Prop :=
  ∀ (i : Instr) (s s' : State), s.acc = s'.acc →
    (∀ t, exec i s = .next t → ∃ r, t = { s with acc := t.acc, responses := s.responses ++ [r] } ∧
      exec i s' = .next { s' with acc := t.acc, responses := s'.responses ++ [r] }) ∧
    ∀ x, exec i s = .refused x → exec i s' = .refused x

/-- No operation faults in any state and an assembled header always has 64 bytes (41_header_builder.md R165, which the
spec derives from R159 to R164); no operation of CE responds with an error and the checksum computation is total
(60_exceptions.md R195). -/
def Obligations.NoOperationFaults : Prop :=
  ∀ (i : Instr) (s : State),
    (∀ f, exec i s ≠ .fault f) ∧
    ((∀ len crc md, i ≠ .hdrBuild len crc md) → ∀ t e, exec i s = .next t → t.responses ≠ s.responses ++ [.err e]) ∧
    (∀ data, ∃ t, exec (.crcCompute data) s = .next t) ∧
    ∀ (len : U64) (crc : U32) (r : Resolved) (bs : List Byte), bs.length = 47 →
      (headerBytes (ser64 len crc r bs)).length = 64

/-- A run completes exactly when it never reads `ACC` while it holds no value (70_reset_and_hazards.md R221), with one
response for each operation. -/
def Obligations.RunsCompleteExactlyWhenInitialised : Prop :=
  ∀ (is : List Instr) (s : State),
    (initialisedRun s.acc.isSome is = true → ∃ t rs, runOps is s = .next t ∧
      t.responses = s.responses ++ rs ∧ rs.length = is.length ∧ t.seq = s.seq ∧ t.inputs = s.inputs) ∧
    (initialisedRun s.acc.isSome is = false → runOps is s = .refused .accUnwritten)

/-! ### Commands and steps (30_encoding.md, 20_memory.md) -/

/-- Decoding an encoded operation gives it back, every operand at every value, at exactly the settings of the open
parameters that admit it; at the others it is refused by name (log entry 8, DEDUCED). -/
def Obligations.DecodeOfEncodeIsTheOperation : Prop :=
  (∀ (p : Config.Params) (i : Instr),
    (decodeAt p (encode i) = .ok i ↔ i.wellFormed p = true) ∧
    (i.wellFormed p = false → decodeAt p (encode i) = .error (.outsideParameters (encode i).cmd))) ∧
  ∀ i : Instr, i.WellFormed ∧ decode (encode i) = .ok i

/-- The other direction: a request that decodes has the command word of its operation, and, but for the metadata
source's spelling of the metadata, its record. That its record is the operation's, for formats N and B none, holds
because a word with another kind of record is refused, on which the spec is silent: the model's choice (log entry 5,
DESIGN CHOICE). The last case rests on the decoder's reading of the metadata source (log entry 7, DEDUCED). -/
def Obligations.EncodeOfDecodeIsTheRequest : Prop :=
  ∀ (r : Request) (i : Instr), decode r = .ok i →
    (encode i).cmd = r.cmd ∧ i.WellFormed ∧
    ((encode i).record = r.record ∨
      ∃ len crc src md, r.record = .build len crc src ∧ src.toMetadata = .ok md ∧ i = .hdrBuild len crc md)

/-- The opcode map: a request decodes only under a row of the table, that row alone covers its word, and it carries the
operation's mnemonic. -/
def Obligations.DecodedWordsHaveOneRow : Prop :=
  ∀ (r : Request) (i : Instr), decode r = .ok i →
    ∃ row ∈ opcodeTable, row.covers r.cmd = true ∧ row.mnemonic = i.mnemonic ∧
      ∀ row' ∈ opcodeTable, row'.covers r.cmd = true → row' = row

/-- R102: the reserved words, which are exactly those no row covers, are refused by name, whatever record comes with
them, by the decoder and by the step. -/
def Obligations.ReservedWordsAreRefused : Prop :=
  ∀ (cmd : U16) (record : Record),
    ((∀ row ∈ opcodeTable, row.covers cmd = false) ↔
      ((cmd.toNat / 256 = 0 ∨ (7 ≤ cmd.toNat / 256 ∧ cmd.toNat / 256 ≤ 0x0F) ∨ 0x11 ≤ cmd.toNat / 256) ∨
        (cmd.toNat / 256 ∈ [0x01, 0x03, 0x05, 0x06, 0x10] ∧ cmd.toNat % 256 ≠ 0))) ∧
    ((∀ row ∈ opcodeTable, row.covers cmd = false) →
      decode ⟨cmd, record⟩ = .error (.reservedWord cmd) ∧
      ∀ (s : State) (rest : List HostInput), s.seq = .idle → s.inputs = .issue ⟨cmd, record⟩ :: rest →
        step s = .refused (.undecodable (.reservedWord cmd)))

/-- The table of example words (95_test_vectors.md T9): which word is which operation, and which are reserved. -/
def Obligations.ExampleWordsDecode : Prop :=
  decode ⟨0b0000000100000000#16, .absent⟩ = .ok .crcInit ∧
  decode ⟨0b0000001000110001#16, .absent⟩ = .ok (.crcXorb 0x31) ∧
  decode ⟨0b0000001000000000#16, .absent⟩ = .ok (.crcXorb 0x00) ∧
  decode ⟨0b0000001100000000#16, .absent⟩ = .ok .crcRound ∧
  decode ⟨0b0000010000110001#16, .absent⟩ = .ok (.crcByte 0x31) ∧
  decode ⟨0b0000010011111111#16, .absent⟩ = .ok (.crcByte 0xFF) ∧
  decode ⟨0b0000010100000000#16, .absent⟩ = .ok .crcFinal ∧
  decode ⟨0b0000011000000000#16, .payload [0x01, 0x02]⟩ = .ok (.crcCompute [0x01, 0x02]) ∧
  decode ⟨0b0001000000000000#16, .build 5 0x1D70B47C []⟩ = .ok (.hdrBuild 5 0x1D70B47C ⟨none, none, none, none⟩) ∧
  ∀ w ∈ [0x0000#16, 0x0101#16, 0x0301#16, 0x0601#16, 0x0700#16, 0x1100#16, 0xFFFF#16],
    decode ⟨w, .absent⟩ = .error (.reservedWord w)

/-- R104: a key other than the four, wherever it stands and whatever its value, changes nothing. -/
def Obligations.UnknownKeysAreIgnored : Prop :=
  ∀ (pre post : MetadataSource) (k : String) (v : MetaValue),
    k ∉ ["Device_type", "Data_type", "Protocol_type", "Reserved"] →
    MetadataSource.toMetadata (pre ++ (k, v) :: post) = MetadataSource.toMetadata (pre ++ post) ∧
    ∀ (cmd : U16) (len : U64) (crc : U32),
      decode ⟨cmd, .build len crc (pre ++ (k, v) :: post)⟩ = decode ⟨cmd, .build len crc (pre ++ post)⟩

/-- How the four keys become the four fields (30_encoding.md R96): a key with its value is present and a missing key is
absent. A source is read exactly when none of the four keys stands twice and each that stands has a value of the kind
it takes; any other source is refused, naming one of the four keys (U10). That the decoder does this reading is the
model's choice (log entry 7, DEDUCED), and which key it names too (log entry 17). -/
def Obligations.MetadataKeysGiveTheFields : Prop :=
  (∀ (src : MetadataSource) (md : FirmwareMetadata), src.toMetadata = .ok md →
    (∀ v, md.deviceType = some v ↔ ("Device_type", .integer v) ∈ src) ∧
    (∀ v, md.dataType = some v ↔ ("Data_type", .integer v) ∈ src) ∧
    (∀ v, md.protocolType = some v ↔ ("Protocol_type", .integer v) ∈ src) ∧
    (∀ vs, md.reserved = some vs ↔ ("Reserved", .sequence vs) ∈ src) ∧
    (md.deviceType = none ↔ "Device_type" ∉ src.map Prod.fst) ∧
    (md.dataType = none ↔ "Data_type" ∉ src.map Prod.fst) ∧
    (md.protocolType = none ↔ "Protocol_type" ∉ src.map Prod.fst) ∧
    (md.reserved = none ↔ "Reserved" ∉ src.map Prod.fst)) ∧
  (∀ src : MetadataSource, (∃ md, src.toMetadata = .ok md) ↔
    (∀ k ∈ ["Device_type", "Data_type", "Protocol_type", "Reserved"], (src.map Prod.fst).count k ≤ 1) ∧
    (∀ e ∈ src, e.1 ∈ ["Device_type", "Data_type", "Protocol_type"] → ∃ v, e.2 = .integer v) ∧
    ∀ e ∈ src, e.1 = "Reserved" → ∃ vs, e.2 = .sequence vs) ∧
  ∀ src : MetadataSource, (∀ md, src.toMetadata ≠ .ok md) →
    ∃ k ∈ ["Device_type", "Data_type", "Protocol_type", "Reserved"],
      src.toMetadata = .error (.malformedMetadata k) ∧
      ∀ (len : U64) (crc : U32), decode ⟨0x1000#16, .build len crc src⟩ = .error (.malformedMetadata k)

/-- A step runs the decoded operation: with none in progress and a request first in line, it is that operation's
meaning on the state without the request. That requests stand in a list whose first the step takes and removes is the
model's choice (log entry 2, DESIGN CHOICE). -/
def Obligations.StepRunsTheDecodedOperation : Prop :=
  ∀ (s : State) (r : Request) (rest : List HostInput) (i : Instr),
    s.seq = .idle → s.inputs = .issue r :: rest → decode r = .ok i →
    step s = exec i { s with inputs := rest }

/-- With nothing issued and nothing in progress a step leaves the machine as it is (log entry 4: the model's choice). -/
def Obligations.IdleStepChangesNothing : Prop :=
  ∀ s : State, s.seq = .idle → s.inputs = [] → step s = .next s ∧ tick s = .next s

/-- The word a fetch test places is the one the next step takes (log entry 2: how an operation comes to run). -/
def Obligations.PlacedWordIsTakenNext : Prop :=
  ∀ (s : State) (w : Nat) (i : Instr), w < 2 ^ 16 → decodeTableWord 16 w = some i →
    step (s.withFetchWord 16 w) = exec i { s with seq := .idle }

/-! ### Invariants -/

/-- The invariant holds after reset. -/
def Obligations.ResetStateIsSound : Prop := State.reset.Inv

/-- Every step keeps the invariant, from every state that has it. -/
def Obligations.StepKeepsSound : Prop :=
  ∀ s t : State, s.Inv → step s = .next t → t.Inv

/-- Every micro-step keeps the invariant, so the phases stay in their ranges and `HDR` is written in layout order, each
byte as its field's store leaves it, after every check has passed (20_memory.md R56, 10_state.md R27). -/
def Obligations.TickKeepsSound : Prop :=
  ∀ s t : State, s.Inv → tick s = .next t → t.Inv

/-- From a sound state no step and no micro-step faults: the total-length assertion holds wherever it is made
(41_header_builder.md R165). -/
def Obligations.SoundStatesNeverFault : Prop :=
  ∀ (s : State) (f : Fault), s.Inv → step s ≠ .fault f ∧ tick s ≠ .fault f

/-- Every step, from any state at all, ends with no operation in progress (20_memory.md R64: each runs to completion). -/
def Obligations.StepEndsIdle : Prop :=
  ∀ s t : State, step s = .next t → t.seq = .idle

/-- The header space keeps its canonical form under every store at an offset it has (log entry 16). -/
def Obligations.HeaderSpaceStaysCanonical : Prop :=
  (∀ (m : Memory) (o : Nat) (bs : List Byte), m.wf = true → o + bs.length ≤ 64 → (storeBytes m o bs).wf = true) ∧
  ∀ (len : U64) (crc : U32) (r : Resolved) (bs : List Byte), bs.length = 47 → (ser64 len crc r bs).wf = true

/-! ### Micro-steps and expansions (10_state.md R27, 30_encoding.md R109) -/

/-- Stepping per micro-step gives, at the end of the operation, exactly the state and the response of its meaning (R27;
log entry 9, DEDUCED, for the two granularities). -/
def Obligations.MicroStepsGiveTheOperation : Prop :=
  ∀ (i : Instr) (s : State), s.seq = .idle → andThen (begin i s) finish = exec i s

/-- The machine that ticks per micro-step passes through the same states at the ends of operations as the one that steps
per operation, and between them the host sees no response. That requests stand in a list is log entry 2 (DESIGN
CHOICE), the two granularities log entry 9 (DEDUCED). A request directly followed by reset is not in it: tick abandons
that operation where step ends it first (log entry 10), and ResetEventClearsAccAndAbandons speaks of it. -/
def Obligations.TicksRefineTheStep : Prop :=
  ∀ (s : State) (r : Request) (rest : List HostInput),
    s.seq = .idle → s.inputs = .issue r :: rest → rest.head? ≠ some .reset →
    ∃ n, 0 < n ∧ tickRun n s = step s ∧
      ∀ m u, 0 < m → m < n → tickRun m s = .next u → u.seq ≠ .idle ∧ u.responses = s.responses ∧ u.inputs = rest

/-- The counts the algorithm fixes (40_checksum_engine.md R138, 41_header_builder.md R169, which the spec derives). -/
def Obligations.MicroStepCounts : Prop :=
  (∀ (s : State) (b : Byte), s.acc ≠ none →
    (∃ t, microRun 8 (setSeq (.byteXor b) s) = .next t ∧ t.seq = .byteShift 8) ∧
    ∃ t, microRun 9 (setSeq (.byteXor b) s) = .next t ∧ t.seq = .idle) ∧
  (∀ (s : State) (data : List Byte),
    (∃ t, microRun (1 + 9 * data.length) (setSeq (.computeInit data) s) = .next t ∧ t.seq = .computeFinal) ∧
    ∃ t, microRun (1 + 9 * data.length + 1) (setSeq (.computeInit data) s) = .next t ∧ t.seq = .idle) ∧
  (∀ (s : State) (len : U64) (crc : U32) (md : FirmwareMetadata), firstViolation (resolve md) = none →
    (∃ t, microRun (1 + (3 + (resolve md).res.length) + 1) (setSeq (.buildResolve len crc md) s) = .next t ∧
      t.seq = .buildSer len crc (resolve md) (norm47 (resolve md).res) .expectedSize []) ∧
    (∃ t m, microRun (1 + (3 + (resolve md).res.length) + 1 + 5) (setSeq (.buildResolve len crc md) s) = .next t ∧
      t.seq = .buildSer len crc (resolve md) (norm47 (resolve md).res) .reserved m) ∧
    ∃ t, microRun (1 + (3 + (resolve md).res.length) + 1 + 6) (setSeq (.buildResolve len crc md) s) = .next t ∧
      t.seq = .idle) ∧
  ∀ (s : State) (len : U64) (crc : U32) (md : FirmwareMetadata) (i : Nat),
    firstViolation (resolve md) = some (.outOfRangeReservedElement i 0 255) →
    (∃ t, microRun (1 + 3 + i) (setSeq (.buildResolve len crc md) s) = .next t ∧
      t.seq = .buildCheckElement len crc (resolve md) i) ∧
    ∃ t, microRun (1 + 3 + (i + 1)) (setSeq (.buildResolve len crc md) s) = .next t ∧ t.seq = .idle ∧
      t.responses = s.responses ++ [.err (.outOfRangeReservedElement i 0 255)]

/-- The pseudo-operations and their expansions agree in the final `ACC` and in the last response, and are refused
together (30_encoding.md R109, which the spec derives). -/
def Obligations.ExpansionsAgree : Prop :=
  (∀ b, expand (.crcByte b) = .crcXorb b :: List.replicate 8 .crcRound) ∧
  (∀ data, expand (.crcCompute data) = .crcInit :: (data.map Instr.crcByte ++ [.crcFinal])) ∧
  ∀ (i : Instr) (s : State),
    (∀ t, exec i s = .next t → ∃ u, runOps (expand i) s = .next u ∧ u.acc = t.acc ∧
      u.responses.getLast? = t.responses.getLast?) ∧
    ∀ x, exec i s = .refused x → runOps (expand i) s = .refused x

/-! ### Laws of the checksum (40_checksum_engine.md section 2) -/

/-- The bit form of a round, its taps, and that a round is a bijection (R131, which the spec derives). -/
def Obligations.RoundIsTheGaloisRegister : Prop :=
  (∀ (a : U32) (i : Nat), i < 32 → (Machine.round a).getLsbD i = galoisBit a i) ∧
  (∀ i, (0x04C11DB7#32).getLsbD i = true ↔ i ∈ [0, 1, 2, 4, 5, 7, 8, 10, 11, 12, 16, 22, 23, 26]) ∧
  (∀ a : U32, unround (Machine.round a) = a) ∧ ∀ a : U32, Machine.round (unround a) = a

/-- The message-bit-serial form of a byte (R132, which the spec derives): for every state that holds a value, what
`CRC.BYTE` leaves in `ACC`. -/
def Obligations.ByteIsEightSerialBits : Prop :=
  ∀ (s : State) (a : U32) (b : Byte), s.acc = some a →
    ∃ t, exec (.crcByte b) s = .next t ∧ t.acc = some (serialByte a b)

/-- The table form of a byte (R133, which the spec derives), with the entries the rule lists. -/
def Obligations.ByteIsTheTableForm : Prop :=
  (∀ (s : State) (a : U32) (b : Byte), s.acc = some a →
    ∃ t, exec (.crcByte b) s = .next t ∧ t.acc = some (tableByte a b)) ∧
  (∀ v, tableEntry v = rounds 8 (v.setWidth 32 <<< 24)) ∧
  tableEntry 0x00 = 0x00000000#32 ∧ tableEntry 0x01 = 0x04C11DB7#32 ∧ tableEntry 0x02 = 0x09823B6E#32 ∧
  tableEntry 0x80 = 0x690CE0EE#32 ∧ tableEntry 0xFF = 0xB1F740B4#32

/-- Rounds and bytes are linear over exclusive-or (R134, which the spec derives). -/
def Obligations.RoundsAndBytesAreLinear : Prop :=
  (∀ a a' : U32, Machine.round (a ^^^ a') = Machine.round a ^^^ Machine.round a') ∧
  (∀ (a a' : U32) (b b' : Byte), byteStep (a ^^^ a') (b ^^^ b') = byteStep a b ^^^ byteStep a' b') ∧
  ∀ (a : U32) (b : Byte), byteStep a b = byteStep (a ^^^ (b.setWidth 32 <<< 24)) 0

/-- `ACC` after a message is the remainder of a polynomial division over GF(2) (R135, from general knowledge in the spec;
nothing else rests on it). -/
def Obligations.AccIsThePolynomialRemainder : Prop :=
  ∀ (s : State) (start : U32) (msg : List Byte), s.acc = some start →
    let poly : Nat → Nat → Polynomial (ZMod 2) := fun n v =>
      ∑ i ∈ Finset.range n, if v.testBit i then (Polynomial.X : Polynomial (ZMod 2)) ^ i else 0
    let g : Polynomial (ZMod 2) :=
      Polynomial.X ^ 32 + Polynomial.X ^ 26 + Polynomial.X ^ 23 + Polynomial.X ^ 22 + Polynomial.X ^ 16 +
        Polynomial.X ^ 12 + Polynomial.X ^ 11 + Polynomial.X ^ 10 + Polynomial.X ^ 8 + Polynomial.X ^ 7 +
        Polynomial.X ^ 5 + Polynomial.X ^ 4 + Polynomial.X ^ 2 + Polynomial.X + 1
    ∃ t a, runOps (msg.map Instr.crcByte) s = .next t ∧ t.acc = some a ∧
      poly 32 a.toNat =
        (poly 32 start.toNat * Polynomial.X ^ (8 * msg.length) +
          poly (8 * msg.length) (frombe msg) * Polynomial.X ^ 32) %ₘ g

/-- The residue of a message followed by its own checksum (R136, which the spec derives). -/
def Obligations.MessageWithItsChecksumHasTheResidue : Prop :=
  ∀ (s t : State) (msg : List Byte) (c : U32),
    exec (.crcCompute msg) s = .next t → t.responses = s.responses ++ [.checksum c] →
    exec (.crcCompute (msg ++ be 4 c)) s =
      .next { s with acc := some 0xC704DD7B#32, responses := s.responses ++ [.checksum 0x38FB2284#32] }

/-! ### The host's side -/

/-- The source's own use (70_reset_and_hazards.md R222, R233; 20_memory.md R62): the image is header then payload, its
header carries the payload's length and checksum, and a consumer that recomputes the checksum accepts it. Packing and
the consumer's check are functions beside the machine (log entry 20, DEDUCED). -/
def Obligations.PackedImagesAreAccepted : Prop :=
  ∀ (payload : List Byte) (md : FirmwareMetadata) (img : List Byte), packImage payload md = some (.ok img) →
    ∃ h c, img = h ++ payload ∧ h.length = 64 ∧ img.length = 64 + payload.length ∧
      (readHeader img).expectedSize = payload.length ∧ (readHeader img).expectedCrc = c.toNat ∧
      consumerVerdict img = some true ∧
      ∀ s : State, ∃ t,
        runOps [.crcCompute payload, .hdrBuild (BitVec.ofNat 64 payload.length) c md] s = .next t ∧
        t.responses = s.responses ++ [.checksum c, .ok h]

/-- The numeric codes of responses and the bounds every reported error carries (30_encoding.md R92). R92 gives status 0
to `Ok` and `done`; that a checksum's status is 0 too, and kind 0 for every response that carries no error, is the
model's reading (log entry 20, DEDUCED). -/
def Obligations.ResponseCodesAndBounds : Prop :=
  Response.status .done = 0 ∧ (∀ v, Response.status (.checksum v) = 0) ∧ (∀ h, Response.status (.ok h) = 0) ∧
  (∀ e, Response.status (.err e) = 1) ∧ (∀ f lo hi, Response.kind (.err (.outOfRangeField f lo hi)) = 1) ∧
  (∀ i lo hi, Response.kind (.err (.outOfRangeReservedElement i lo hi)) = 2) ∧ Response.kind .done = 0 ∧
  (∀ v, Response.kind (.checksum v) = 0) ∧ (∀ h, Response.kind (.ok h) = 0) ∧
  Field.code .deviceType = 0 ∧ Field.code .dataType = 1 ∧ Field.code .protocolType = 2 ∧
  ∀ (s t : State) (i : Instr) (e : ValidationError),
    exec i s = .next t → t.responses = s.responses ++ [.err e] →
    e = .outOfRangeField .deviceType 0 65535 ∨ e = .outOfRangeField .dataType 0 255 ∨
      e = .outOfRangeField .protocolType 0 65535 ∨ ∃ n, e = .outOfRangeReservedElement n 0 255

/-- Independent copies (60_exceptions.md R206): a step of one is its own step and leaves every other as it was. -/
def Obligations.CopiesShareNothing : Prop :=
  ∀ (cs cs' : Copies) (i : Fin cs.length), stepCopy cs i = .next cs' →
    cs'.length = cs.length ∧ (∃ t, step cs[i] = .next t ∧ cs'[i.val]? = some t) ∧
    ∀ j, j ≠ i.val → cs'[j]? = cs[j]?
end

