-- ==== Sys2Proof/Laws/State.lean ====
section
/-! SUPPORT. One lemma per field per update of the state, so that no proof unfolds a record update. -/

namespace Sys2Proof.Machine

variable (s : State) (v : U32) (r : Response) (q : Seq) (e : ValidationError) (i : HostInput)

@[simp] theorem writeAcc_acc : (writeAcc v s).acc = some v := rfl
@[simp] theorem writeAcc_seq : (writeAcc v s).seq = s.seq := rfl
@[simp] theorem writeAcc_inputs : (writeAcc v s).inputs = s.inputs := rfl
@[simp] theorem writeAcc_responses : (writeAcc v s).responses = s.responses := rfl

@[simp] theorem respond_acc : (respond r s).acc = s.acc := rfl
@[simp] theorem respond_seq : (respond r s).seq = s.seq := rfl
@[simp] theorem respond_inputs : (respond r s).inputs = s.inputs := rfl
@[simp] theorem respond_responses : (respond r s).responses = s.responses ++ [r] := rfl

@[simp] theorem setSeq_acc : (setSeq q s).acc = s.acc := rfl
@[simp] theorem setSeq_seq : (setSeq q s).seq = q := rfl
@[simp] theorem setSeq_inputs : (setSeq q s).inputs = s.inputs := rfl
@[simp] theorem setSeq_responses : (setSeq q s).responses = s.responses := rfl

@[simp] theorem raise_acc : (raise e s).acc = s.acc := rfl
@[simp] theorem raise_seq : (raise e s).seq = s.seq := rfl
@[simp] theorem raise_inputs : (raise e s).inputs = s.inputs := rfl
@[simp] theorem raise_responses : (raise e s).responses = s.responses ++ [.err e] := rfl

@[simp] theorem takeReset_acc : (takeReset s).acc = none := rfl
@[simp] theorem takeReset_seq : (takeReset s).seq = .idle := rfl
@[simp] theorem takeReset_inputs : (takeReset s).inputs = s.inputs := rfl
@[simp] theorem takeReset_responses : (takeReset s).responses = s.responses := rfl

@[simp] theorem present_acc : (present i s).acc = s.acc := rfl
@[simp] theorem present_seq : (present i s).seq = s.seq := rfl
@[simp] theorem present_inputs : (present i s).inputs = s.inputs ++ [i] := rfl
@[simp] theorem present_responses : (present i s).responses = s.responses := rfl

end Sys2Proof.Machine
end

