-- ==== Sys2Proof/Laws/Ops.lean ====
section
/-! SUPPORT. What each shared operation does, said once: reading `ACC`, going on after an outcome, advancing. -/

namespace Sys2Proof.Machine

theorem withAcc_some {s : State} {a : U32} (h : s.acc = some a) (k : U32 → Result) : withAcc s k = k a := by
  simp [withAcc, h]

theorem withAcc_none {s : State} (h : s.acc = none) (k : U32 → Result) : withAcc s k = .refused .accUnwritten := by
  simp [withAcc, h]

/-- Reading `ACC` answers a next state only if it holds a value. -/
theorem withAcc_next {s t : State} {k : U32 → Result} (h : withAcc s k = .next t) :
    ∃ a, s.acc = some a ∧ k a = .next t := by
  unfold withAcc at h
  split at h
  · exact ⟨_, ‹_›, h⟩
  · cases h

/-- The sequencing state plays no part in reading `ACC`. -/
@[simp] theorem withAcc_setSeq (q : Seq) (s : State) (k : U32 → Result) : withAcc (setSeq q s) k = withAcc s k := rfl

@[simp] theorem setSeq_setSeq (q q' : Seq) (s : State) : setSeq q (setSeq q' s) = setSeq q s := rfl

@[simp] theorem andThen_next (s : State) (k : State → Result) : andThen (.next s) k = k s := rfl
@[simp] theorem andThen_fault (f : Fault) (k : State → Result) : andThen (.fault f) k = .fault f := rfl
@[simp] theorem andThen_refused (r : Refusal) (k : State → Result) : andThen (.refused r) k = .refused r := rfl

/-- Going on answers a next state only through a next state. -/
theorem andThen_eq_next {o : Result} {k : State → Result} {t : State} (h : andThen o k = .next t) :
    ∃ s, o = .next s ∧ k s = .next t := by
  cases o with
  | next s => exact ⟨s, rfl, h⟩
  | fault f => cases h
  | refused r => cases h

/-- Going on with nothing more to do changes nothing. -/
theorem andThen_id (o : Result) : (andThen o fun s => .next s) = o := by
  cases o <;> rfl

theorem andThen_assoc (o : Result) (k l : State → Result) :
    andThen (andThen o k) l = andThen o fun s => andThen (k s) l := by
  cases o <;> rfl

/-- A run of two lists is the one run after the other. -/
theorem runOps_append (is js : List Instr) (s : State) :
    runOps (is ++ js) s = andThen (runOps is s) (runOps js) := by
  induction is generalizing s with
  | nil => rfl
  | cons i is ih =>
    show andThen (exec i s) (runOps (is ++ js)) = andThen (andThen (exec i s) (runOps is)) (runOps js)
    rw [andThen_assoc]
    congr 1
    funext t
    exact ih t

theorem microRun_add (m n : Nat) (s : State) : microRun (m + n) s = andThen (microRun m s) (microRun n) := by
  induction m generalizing s with
  | zero => simp [microRun]
  | succ m ih =>
    rw [Nat.succ_add, microRun, microRun, andThen_assoc]
    congr 1
    funext t
    exact ih t

/-- Everything an advance can be: reset, an operation taken, or the operation in progress carried on. -/
theorem advance_cases (start : Instr → State → Result) (carryOn : State → Result) (s : State) :
    (∃ rest, s.inputs = .reset :: rest ∧ advance start carryOn s = .next (takeReset { s with inputs := rest })) ∨
    (∃ r rest, s.inputs = .issue r :: rest ∧ s.seq = .idle ∧
      advance start carryOn s = takeRequest start r { s with inputs := rest }) ∨
    ((∀ rest, s.inputs ≠ .reset :: rest) ∧ (s.inputs = [] ∨ s.seq ≠ .idle) ∧
      advance start carryOn s = carryOn s) := by
  unfold advance
  split
  · rename_i rest h
    exact .inl ⟨rest, h, rfl⟩
  · rename_i r rest h
    split
    · exact .inr (.inl ⟨r, rest, h, ‹_›, rfl⟩)
    · refine .inr (.inr ⟨by simp [h], .inr ?_, rfl⟩)
      assumption
  · rename_i h
    exact .inr (.inr ⟨by simp [h], .inl h, rfl⟩)

end Sys2Proof.Machine
end

