-- ==== Sys2Proof/Laws/Crc.lean ====
section
/-! SUPPORT. What the steps of CE do on the accumulator, and how runs of them compose. -/

namespace Sys2Proof.Machine

theorem rounds_zero (a : U32) : rounds 0 a = a := rfl
theorem rounds_succ (k : Nat) (a : U32) : rounds (k + 1) a = rounds k (round a) := rfl

/-- k rounds are the round iterated k times. -/
theorem rounds_eq_iterate (k : Nat) (a : U32) : rounds k a = round^[k] a := by
  induction k generalizing a with
  | zero => rfl
  | succ k ih => rw [rounds_succ, ih]; rfl

theorem rounds_add (m n : Nat) (a : U32) : rounds (m + n) a = rounds n (rounds m a) := by
  induction m generalizing a with
  | zero => rw [Nat.zero_add, rounds_zero]
  | succ m ih => rw [Nat.succ_add, rounds_succ, rounds_succ, ih]

@[simp] theorem absorb_nil (a : U32) : absorb a [] = a := rfl
@[simp] theorem absorb_cons (a : U32) (b : Byte) (data : List Byte) :
    absorb a (b :: data) = absorb (byteStep a b) data := rfl
theorem absorb_append (a : U32) (xs ys : List Byte) : absorb a (xs ++ ys) = absorb (absorb a xs) ys := by
  simp [absorb]

/-- The complement is the exclusive-or with XOROUT (00_scope.md R6). -/
theorem finalOf_eq_xor (a : U32) : finalOf a = a ^^^ Config.xorOut := by
  rw [finalOf, Config.xorOut, show (0xFFFFFFFF#32) = BitVec.allOnes 32 from rfl, BitVec.xor_allOnes]

/-- k rounds issued as operations. -/
theorem runOps_rounds (k : Nat) {s : State} {a : U32} (h : s.acc = some a) :
    runOps (List.replicate k .crcRound) s =
      .next { s with acc := some (rounds k a), responses := s.responses ++ List.replicate k .done } := by
  induction k generalizing s a with
  | zero => simp [runOps, rounds_zero, ← h]
  | succ k ih =>
    have step : exec .crcRound s = .next (respond .done (writeAcc (round a) s)) := withAcc_some h _
    rw [List.replicate_succ, runOps, step, andThen_next, ih (a := round a) rfl]
    simp [respond, writeAcc, rounds_succ, List.replicate_succ]

/-- A message issued byte by byte. -/
theorem runOps_bytes (msg : List Byte) {s : State} {a : U32} (h : s.acc = some a) :
    runOps (msg.map Instr.crcByte) s =
      .next { s with acc := some (absorb a msg), responses := s.responses ++ List.replicate msg.length .done } := by
  induction msg generalizing s a with
  | nil => simp [runOps, ← h]
  | cons b msg ih =>
    have step : exec (.crcByte b) s = .next (respond .done (writeAcc (byteStep a b) s)) := withAcc_some h _
    rw [List.map_cons, runOps, step, andThen_next, ih (a := byteStep a b) rfl]
    simp [respond, writeAcc, List.replicate_succ]

end Sys2Proof.Machine
end

