-- ==== Sys2Proof/Laws/Decode.lean ====
section
/-! SUPPORT. Facts about command words and metadata sources that decoding rests on. -/

namespace Sys2Proof

/-- A command word is its operation code above its immediate (30_encoding.md R81). -/
theorem word_of_fields (w : U16) : w = (opOf w).setWidth 16 <<< 8 ||| (immOf w).setWidth 16 := by
  ext i hi
  by_cases h : i < 8
  · simp [opOf, immOf, h, BitVec.getLsbD_eq_getElem, hi]
  · have h1 : i - 8 < 8 := by omega
    have h2 : 8 + (i - 8) = i := by omega
    simp [opOf, immOf, h, h1, h2, hi, BitVec.getLsbD_eq_getElem]

/-- The two fields determine the word. -/
theorem word_ext {w w' : U16} (ho : opOf w = opOf w') (hi : immOf w = immOf w') : w = w' := by
  rw [word_of_fields w, word_of_fields w', ho, hi]

/-- The operation code is the word divided by 256. -/
theorem opOf_toNat (w : U16) : (opOf w).toNat = w.toNat / 256 := by
  have := w.isLt
  simp [opOf, BitVec.extractLsb'_toNat, Nat.shiftRight_eq_div_pow]
  omega

/-- The immediate is the word's remainder by 256. -/
theorem immOf_toNat (w : U16) : (immOf w).toNat = w.toNat % 256 := by
  simp [immOf, BitVec.extractLsb'_toNat]

/-- A row that fixes only the operation code covers the words that have it. -/
theorem and_high_mask (w : U16) : w &&& 0xFF00#16 = (opOf w).setWidth 16 <<< 8 := by
  have key : ∀ o i : Byte, (o.setWidth 16 <<< 8 ||| i.setWidth 16) &&& 0xFF00#16 = (o.setWidth 16 <<< 8 : U16) := by
    have hm : ∀ j : Fin 16, (0xFF00#16)[j.val] = decide (8 ≤ j.val) := by decide
    intro o i
    ext j hj
    have := hm ⟨j, hj⟩
    by_cases h : j < 8
    · have h' : ¬ 8 ≤ j := by omega
      simp_all
    · have h' : 8 ≤ j := by omega
      have h1 : i.getLsbD j = false := BitVec.getLsbD_of_ge _ _ h'
      simp_all
  conv_lhs => rw [word_of_fields w]
  exact key _ _

/-- The operation code of an encoded word with an immediate. -/
theorem opOf_or (o b : Byte) : opOf (o.setWidth 16 <<< 8 ||| b.setWidth 16) = o := by
  apply BitVec.eq_of_getLsbD_eq
  intro i hi
  have h2 : 8 + i < 16 := by omega
  simp [opOf, h2, hi]

/-- The immediate of an encoded word. -/
theorem immOf_or (o b : Byte) : immOf (o.setWidth 16 <<< 8 ||| b.setWidth 16) = b := by
  apply BitVec.eq_of_getLsbD_eq
  intro i hi
  have h2 : i < 16 := by omega
  simp [immOf, h2, hi]

/-- The values under a key in a source cut in two. -/
theorem valuesAt_append (k : String) (a b : MetadataSource) :
    MetadataSource.valuesAt k (a ++ b) = MetadataSource.valuesAt k a ++ MetadataSource.valuesAt k b := by
  simp [MetadataSource.valuesAt]

/-- A value stands under a key exactly when the pair is in the source. -/
theorem mem_valuesAt (k : String) (src : MetadataSource) (v : MetaValue) :
    v ∈ MetadataSource.valuesAt k src ↔ (k, v) ∈ src := by
  simp [MetadataSource.valuesAt]

/-- As many values stand under a key as the key stands in the source. -/
theorem valuesAt_length (k : String) (src : MetadataSource) :
    (MetadataSource.valuesAt k src).length = (src.map Prod.fst).count k := by
  simp only [MetadataSource.valuesAt, List.length_map, List.count, List.countP_map, ← List.countP_eq_length_filter]
  rfl

/-- A source is read exactly when each of the four keys is. -/
theorem toMetadata_ok_iff (src : MetadataSource) (md : FirmwareMetadata) :
    src.toMetadata = .ok md ↔
      src.scalar keyDeviceType = .ok md.deviceType ∧ src.scalar keyDataType = .ok md.dataType ∧
        src.scalar keyProtocolType = .ok md.protocolType ∧ src.sequence keyReserved = .ok md.reserved := by
  obtain ⟨a, b, c, d⟩ := md
  unfold MetadataSource.toMetadata
  cases src.scalar keyDeviceType <;> cases src.scalar keyDataType <;> cases src.scalar keyProtocolType <;>
    cases src.sequence keyReserved <;> simp

/-- Only the values under the four keys count (R96, R104). -/
theorem toMetadata_congr {a b : MetadataSource} (h : ∀ k ∈ knownKeys, a.valuesAt k = b.valuesAt k) :
    a.toMetadata = b.toMetadata := by
  have h1 := h keyDeviceType (by decide)
  have h2 := h keyDataType (by decide)
  have h3 := h keyProtocolType (by decide)
  have h4 := h keyReserved (by decide)
  simp only [MetadataSource.toMetadata, MetadataSource.scalar, MetadataSource.sequence, h1, h2, h3, h4]

/-- Reading a written metadata source gives the metadata back. -/
theorem toSource_toMetadata (md : FirmwareMetadata) : md.toSource.toMetadata = .ok md := by
  obtain ⟨a, b, c, d⟩ := md
  cases a <;> cases b <;> cases c <;> cases d <;> rfl

/-- The spec's parameters admit every operand (00_scope.md R8). -/
theorem wellFormed_default (i : Instr) : i.WellFormed := by
  cases i with
  | hdrBuild len crc md =>
    obtain ⟨a, b, c, d⟩ := md
    cases a <;> cases b <;> cases c <;> cases d <;>
      simp [Instr.WellFormed, Instr.wellFormed, FirmwareMetadata.wellFormed, Config.params, mdIntFits, lengthFits]
  | _ => rfl

/-- So decoding is reading the operation. -/
theorem decode_eq_decodeOp (r : Request) : decode r = decodeOp r := by
  unfold decode decodeAt
  cases decodeOp r with
  | error e => rfl
  | ok i => simp [wellFormed_default i]

end Sys2Proof
end

