-- ==== Sys2Proof/Laws/Memory.lean ====
section
/-! SUPPORT. The header space: reading after a store, and that every store keeps the canonical form. -/

namespace Sys2Proof.Machine

/-- Reading after one byte is stored: that byte at its offset, everything else as before. -/
theorem memRead_memWrite (m : Memory) (a b : Nat) (v : Byte) :
    memRead (memWrite m a v) b = if b = a then some v else memRead m b := by
  induction m with
  | nil => simp [memWrite, memRead, eq_comm]
  | cons c m ih =>
    rw [memWrite]
    split
    · simp [memRead, eq_comm]
    · split
      · subst_vars
        by_cases hb : b = c.1 <;> simp [memRead, hb, eq_comm]
      · rw [memRead, memRead, ih]
        by_cases hc : c.1 = b
        · have : b ≠ a := by rintro rfl; omega
          simp [hc, this]
        · simp [hc]

/-- Reading after a byte sequence is stored. -/
theorem memRead_storeBytes (m : Memory) (o a : Nat) (bs : List Byte) :
    memRead (storeBytes m o bs) a = if o ≤ a ∧ a < o + bs.length then bs[a - o]? else memRead m a := by
  induction bs generalizing m o with
  | nil => simp [storeBytes]
  | cons b bs ih =>
    rw [storeBytes, ih, memRead_memWrite]
    by_cases h : a = o
    · subst h; simp
    · by_cases h1 : o + 1 ≤ a ∧ a < o + 1 + bs.length
      · have h2 : o ≤ a ∧ a < o + (b :: bs).length := by simp; omega
        have h3 : a - o = (a - (o + 1)) + 1 := by omega
        rw [if_pos h1, if_pos h2, h3, List.getElem?_cons_succ]
      · have h2 : ¬ (o ≤ a ∧ a < o + (b :: bs).length) := by simp; omega
        rw [if_neg h1, if_neg h2, if_neg h]

/-- The offsets a store leaves are the old ones and the stored one. -/
theorem mem_memWrite {m : Memory} {a : Nat} {v : Byte} {c : Host.Cell} (h : c ∈ memWrite m a v) :
    c = (a, v) ∨ c ∈ m := by
  induction m with
  | nil => simpa [memWrite] using h
  | cons d m ih =>
    rw [memWrite] at h
    split at h
    · simpa using h
    · split at h
      · rcases List.mem_cons.1 h with h | h
        · exact .inl h
        · exact .inr (List.mem_cons_of_mem _ h)
      · rcases List.mem_cons.1 h with h | h
        · exact .inr (h ▸ List.mem_cons_self)
        · exact (ih h).imp_right (List.mem_cons_of_mem _)

theorem wf_iff (m : Memory) :
    m.wf = true ↔ (m.Pairwise fun c d => c.1 < d.1) ∧ ∀ c ∈ m, c.1 < Config.hdrSize := by
  simp [Memory.wf]

/-- A store at an offset the header has keeps the canonical form. -/
theorem memWrite_wf {m : Memory} {a : Nat} (v : Byte) (h : m.wf = true) (ha : a < Config.hdrSize) :
    (memWrite m a v).wf = true := by
  rw [wf_iff] at h ⊢
  refine ⟨?_, fun c hc => (mem_memWrite hc).elim (fun e => e ▸ ha) (h.2 c)⟩
  obtain ⟨hp, -⟩ := h
  induction m with
  | nil => simp [memWrite]
  | cons d m ih =>
    have hd := List.pairwise_cons.1 hp
    rw [memWrite]
    split
    · rename_i had
      refine List.pairwise_cons.2 ⟨fun c hc => ?_, hp⟩
      rcases List.mem_cons.1 hc with rfl | hc
      · exact had
      · exact lt_trans had (hd.1 c hc)
    · split
      · rename_i hne heq
        exact List.pairwise_cons.2 ⟨fun c hc => heq ▸ hd.1 c hc, hd.2⟩
      · refine List.pairwise_cons.2 ⟨fun c hc => ?_, ih hd.2⟩
        rcases mem_memWrite hc with rfl | hc
        · show d.1 < a; omega
        · exact hd.1 c hc

/-- The empty header space is canonical. -/
theorem nil_wf : Memory.wf [] = true := by decide

/-- The bytes of a number are as many as asked for. -/
@[simp] theorem be_length {w : Nat} (n : Nat) (v : BitVec w) : (be n v).length = n := by simp [be]

end Sys2Proof.Machine
end

