-- ==== Sys2Proof/Laws/Header.lean ====
section
/-! SUPPORT. What the stages of HDR.BUILD do, one lemma per stage: the checks, the six stores, the whole operation. -/

namespace Sys2Proof.Machine

/-! ### The checks -/

theorem inRange_iff (lo hi : Nat) (x : Int) : inRange lo hi x = true ↔ (lo : Int) ≤ x ∧ x ≤ hi := by
  simp [inRange]

theorem checkField_none (r : Resolved) (f : Field) :
    checkField r f = none ↔ 0 ≤ r.field f ∧ r.field f ≤ fieldHi f := by
  have := inRange_iff fieldLo (fieldHi f) (r.field f)
  simp only [checkField]
  split <;> simp_all [fieldLo]

/-- A scalar check passes or raises the error of its field. -/
theorem checkField_cases (r : Resolved) (f : Field) :
    checkField r f = none ∨ checkField r f = some (.outOfRangeField f 0 (fieldHi f)) := by
  simp only [checkField]
  split <;> simp [fieldLo]

theorem checkElement_none (i : Nat) (x : Int) : checkElement i x = none ↔ 0 ≤ x ∧ x ≤ 255 := by
  have := inRange_iff fieldLo elementHi x
  simp only [checkElement]
  split <;> simp_all [fieldLo, elementHi]

theorem checkElement_cases (i : Nat) (x : Int) :
    checkElement i x = none ∨ checkElement i x = some (.outOfRangeReservedElement i 0 255) := by
  simp only [checkElement]
  split <;> simp [fieldLo, elementHi]

theorem checkElements_none (i : Nat) (res : List Int) :
    checkElements i res = none ↔ ∀ x ∈ res, 0 ≤ x ∧ x ≤ 255 := by
  induction res generalizing i with
  | nil => simp [checkElements]
  | cons x res ih =>
    rw [checkElements, List.forall_mem_cons, ← checkElement_none i x, ← ih (i + 1)]
    rcases checkElement_cases i x with h | h <;> simp [h]

/-- The element check fails at the least failing index. -/
theorem checkElements_some (i : Nat) (res : List Int) (e : ValidationError) :
    checkElements i res = some e ↔
      ∃ n x, e = .outOfRangeReservedElement (i + n) 0 255 ∧ res[n]? = some x ∧ (x < 0 ∨ 255 < x) ∧
        ∀ j y, j < n → res[j]? = some y → 0 ≤ y ∧ y ≤ 255 := by
  induction res generalizing i with
  | nil => simp [checkElements]
  | cons x res ih =>
    have hx := checkElement_none i x
    rw [checkElements]
    rcases checkElement_cases i x with h | h
    · have h' := hx.1 h
      simp only [h]
      rw [ih]
      constructor
      · rintro ⟨n, y, rfl, h1, h2, h3⟩
        refine ⟨n + 1, y, by simp; omega, by simpa using h1, h2, fun j z hj hz => ?_⟩
        cases j with
        | zero => simp at hz; exact hz ▸ h'
        | succ j => exact h3 j z (by omega) (by simpa using hz)
      · rintro ⟨n, y, rfl, h1, h2, h3⟩
        cases n with
        | zero => simp at h1; omega
        | succ n =>
          exact ⟨n, y, by simp; omega, by simpa using h1, h2,
            fun j z hj hz => h3 (j + 1) z (by omega) (by simpa using hz)⟩
    · have h' : x < 0 ∨ 255 < x := by
        by_contra hc
        rw [hx.2 (by omega)] at h
        cases h
      simp only [h, Option.some.injEq]
      constructor
      · rintro rfl
        exact ⟨0, x, by simp, by simp, h', by simp⟩
      · rintro ⟨n, y, rfl, h1, h2, h3⟩
        cases n with
        | zero => simp
        | succ n => have := h3 0 x (by omega) (by simp); omega

/-- All checks pass exactly when the resolved metadata are in range (41_header_builder.md R153). -/
theorem firstViolation_none (r : Resolved) :
    firstViolation r = none ↔ (0 ≤ r.dev ∧ r.dev ≤ 65535) ∧ (0 ≤ r.dat ∧ r.dat ≤ 255) ∧
      (0 ≤ r.pro ∧ r.pro ≤ 65535) ∧ ∀ x ∈ r.res, 0 ≤ x ∧ x ≤ 255 := by
  have a := checkField_none r .deviceType
  have b := checkField_none r .dataType
  have c := checkField_none r .protocolType
  simp only [Resolved.field, fieldHi] at a b c
  rw [firstViolation, ← checkElements_none 0]
  rcases checkField_cases r .deviceType with ha | ha <;> rcases checkField_cases r .dataType with hb | hb <;>
    rcases checkField_cases r .protocolType with hc | hc <;> simp_all

/-! ### The stores -/

/-- A store past every offset written so far appends. -/
theorem memWrite_append (m : Memory) (a : Nat) (b : Byte) (h : ∀ c ∈ m, c.1 < a) :
    memWrite m a b = m ++ [(a, b)] := by
  induction m with
  | nil => rfl
  | cons c m ih =>
    have hc := h c (by simp)
    rw [memWrite, if_neg (by omega), if_neg (by omega), ih (fun c hc => h c (by simp [hc]))]
    rfl

/-- The cells of a byte sequence that starts at offset o. -/
def cells (o : Nat) (bs : List Byte) : Memory := (List.range' o bs.length).zip bs

theorem cells_cons (o : Nat) (b : Byte) (bs : List Byte) : cells o (b :: bs) = (o, b) :: cells (o + 1) bs := by
  simp [cells, List.range'_succ]

/-- Bytes stored right after those written extend the sequence. -/
theorem storeBytes_cells (o : Nat) (pre bs : List Byte) (ho : o = pre.length) :
    storeBytes (cells 0 pre) o bs = cells 0 (pre ++ bs) := by
  induction bs generalizing pre o with
  | nil => simp [storeBytes]
  | cons b bs ih =>
    rw [storeBytes, memWrite_append]
    · have : cells 0 pre ++ [(o, b)] = cells 0 (pre ++ [b]) := by
        simp only [cells, List.length_append, List.length_cons, List.length_nil]
        rw [← List.range'_append_1, List.zip_append (by simp)]
        simp [ho]
      rw [this, ih _ _ (by simp [ho])]
      simp
    · intro c hc
      have := (List.of_mem_zip (show (c.1, c.2) ∈ _ from hc)).1
      simp at this
      omega

theorem memRead_cells (o : Nat) (bs : List Byte) (a : Nat) :
    memRead (cells o bs) a = if o ≤ a then bs[a - o]? else none := by
  induction bs generalizing o with
  | nil => simp [cells, memRead]
  | cons b bs ih =>
    rw [cells_cons, memRead, ih]
    by_cases h : o = a
    · subst h; simp
    · by_cases h2 : o ≤ a
      · have h4 : a - o = (a - (o + 1)) + 1 := by omega
        have h3 : o + 1 ≤ a := by omega
        simp [h, h2, h3, h4]
      · have h3 : ¬ o + 1 ≤ a := by omega
        simp [h, h2, h3]

theorem filterMap_getElem? (l : List Byte) : (List.range l.length).filterMap (fun a => l[a]?) = l := by
  induction l with
  | nil => rfl
  | cons b l ih =>
    rw [List.length_cons, List.range_succ_eq_map, List.filterMap_cons_some (b := b) (by simp), List.filterMap_map]
    congr 1

/-- The header's bytes are the 64 that were stored from offset 0 on. -/
theorem headerBytes_cells (bs : List Byte) (h : bs.length = 64) : headerBytes (cells 0 bs) = bs := by
  have key : memRead (cells 0 bs) = fun a => bs[a]? := by
    funext a
    rw [memRead_cells]
    simp
  have := filterMap_getElem? bs
  rw [h] at this
  rw [headerBytes, key]
  exact this

/-- The fields of a header one after the other (41_header_builder.md R159, "equivalently"). -/
def layout (len : U64) (crc : U32) (r : Resolved) (res47 : List Byte) : List Byte :=
  be 8 len ++ be 4 crc ++ be 2 (toU16 r.dev) ++ be 1 (toU8 r.dat) ++ be 2 (toU16 r.pro) ++ res47

theorem layout_length (len : U64) (crc : U32) (r : Resolved) {res47 : List Byte} (h : res47.length = 47) :
    (layout len crc r res47).length = 64 := by simp [layout, h]

theorem norm47_length (res : List Int) : (norm47 res).length = 47 := by simp [norm47, Config.resSize]

/-- One more field stored, in layout order. -/
theorem storeFields_next (len : U64) (crc : U32) (r : Resolved) (res47 : List Byte) {f g : HdrField}
    (h : f.next = some g) :
    storeField len crc r res47 f (storeFields len crc r res47 f.before) = storeFields len crc r res47 g.before := by
  cases f <;> cases h <;> simp only [storeFields, HdrField.before, List.foldl]

/-- The last field stored completes `ser64`. -/
theorem storeFields_last (len : U64) (crc : U32) (r : Resolved) (res47 : List Byte) :
    storeField len crc r res47 .reserved (storeFields len crc r res47 (HdrField.before .reserved)) =
      ser64 len crc r res47 := by
  simp only [ser64, storeFields, HdrField.before, List.foldl]

/-- The six stores write the layout. -/
theorem ser64_eq (len : U64) (crc : U32) (r : Resolved) (res47 : List Byte) :
    ser64 len crc r res47 = cells 0 (layout len crc r res47) := by
  have h0 : ([] : Memory) = cells 0 [] := rfl
  simp only [ser64, storeFields, List.foldl, storeField, HdrField.offset, wrU64, wrU32, wrU16, wrU8, wrRaw47]
  rw [h0, storeBytes_cells _ _ _ (by rfl), storeBytes_cells _ _ _ (by simp [Config.offExpectedCrc]),
    storeBytes_cells _ _ _ (by simp [Config.offDeviceType]), storeBytes_cells _ _ _ (by simp [Config.offDataType]),
    storeBytes_cells _ _ _ (by simp [Config.offProtocolType]), storeBytes_cells _ _ _ (by simp [Config.offReserved])]
  simp [layout]

theorem deliverHeader_cells {bs : List Byte} (h : bs.length = 64) (s : State) :
    deliverHeader (cells 0 bs) s = .next (respond (.ok bs) s) := by
  rw [deliverHeader, headerBytes_cells bs h]
  exact if_pos h

/-- `HDR.BUILD`, everything it can do: raise the first violation, or respond with the layout. -/
theorem execHdrBuild_eq (len : U64) (crc : U32) (md : FirmwareMetadata) (s : State) :
    execHdrBuild len crc md s =
      match firstViolation (resolve md) with
      | some e => .next (raise e s)
      | none => .next (respond (.ok (layout len crc (resolve md) (norm47 (resolve md).res))) s) := by
  unfold execHdrBuild
  cases firstViolation (resolve md) with
  | some e => rfl
  | none =>
    show deliverHeader (ser64 len crc (resolve md) (norm47 (resolve md).res)) s = _
    rw [ser64_eq, deliverHeader_cells (layout_length len crc (resolve md) (norm47_length _))]

end Sys2Proof.Machine
end

