-- ==== Sys2Proof/Laws/Exec.lean ====
section
/-! SUPPORT. Everything an operation can do, said once: the frame every next state meets, and when there is none. -/

namespace Sys2Proof.Machine

/-- The error of a failing check is one of the four causes (60_exceptions.md R191). -/
theorem firstViolation_wf {r : Resolved} {e : ValidationError} (h : firstViolation r = some e) : e.wf := by
  rw [firstViolation] at h
  rcases checkField_cases r .deviceType with ha | ha <;> rcases checkField_cases r .dataType with hb | hb <;>
    rcases checkField_cases r .protocolType with hc | hc <;> simp only [ha, hb, hc] at h <;>
    try (cases h; exact ⟨rfl, rfl⟩)
  obtain ⟨n, x, rfl, -⟩ := (checkElements_some _ _ _).1 h
  exact ⟨rfl, rfl⟩

/-- An operation that answers a next state appends one response, may write `ACC`, changes nothing else, and does the
same from every state with the same `ACC`. -/
theorem exec_next {i : Instr} {s t : State} (h : exec i s = .next t) :
    ∃ r, r.wf ∧ t = { s with acc := t.acc, responses := s.responses ++ [r] } ∧
      ∀ s' : State, s'.acc = s.acc → exec i s' = .next { s' with acc := t.acc, responses := s'.responses ++ [r] } := by
  cases i with
  | crcInit => cases h; exact ⟨.done, trivial, rfl, fun _ _ => rfl⟩
  | crcCompute data => cases h; exact ⟨.checksum (computeChecksum data), trivial, rfl, fun _ _ => rfl⟩
  | crcFinal =>
    obtain ⟨a, ha, h⟩ := withAcc_next h
    cases h
    refine ⟨.checksum (finalOf a), trivial, rfl, fun s' hs => ?_⟩
    rw [exec, execCrcFinal, withAcc_some (hs.trans ha)]
    simp [respond, ← hs]
  | hdrBuild len crc md =>
    simp only [exec, execHdrBuild_eq] at h ⊢
    cases hv : firstViolation (resolve md) with
    | none =>
      rw [hv] at h
      cases h
      exact ⟨.ok _, layout_length len crc (resolve md) (norm47_length (resolve md).res), rfl, fun s' hs => by simp [respond, ← hs]⟩
    | some e =>
      rw [hv] at h
      cases h
      exact ⟨.err e, firstViolation_wf hv, rfl, fun s' hs => by simp [raise, respond, ← hs]⟩
  | _ =>
    obtain ⟨a, ha, h⟩ := withAcc_next h
    cases h
    exact ⟨.done, trivial, rfl, fun s' hs => withAcc_some (hs.trans ha) _⟩

/-- An operation answers a next state unless it needs a value `ACC` does not hold; then it is refused. -/
theorem exec_outcome (i : Instr) (s : State) :
    (needsAcc i = true ∧ s.acc = none ∧ exec i s = .refused .accUnwritten) ∨
    ((needsAcc i = true → s.acc ≠ none) ∧ ∃ t, exec i s = .next t) := by
  have reads : ∀ k : U32 → Result, (∀ a, ∃ t, k a = .next t) →
      (s.acc = none ∧ withAcc s k = .refused .accUnwritten) ∨ (s.acc ≠ none ∧ ∃ t, withAcc s k = .next t) := by
    intro k hk
    cases hs : s.acc with
    | none => exact .inl ⟨rfl, withAcc_none hs k⟩
    | some a => exact .inr ⟨by simp, by rw [withAcc_some hs]; exact hk a⟩
  cases i with
  | crcInit => exact .inr ⟨by simp [needsAcc], _, rfl⟩
  | crcCompute data => exact .inr ⟨by simp [needsAcc], _, rfl⟩
  | hdrBuild len crc md =>
    refine .inr ⟨by simp [needsAcc], ?_⟩
    rw [exec, execHdrBuild_eq]
    cases firstViolation (resolve md) <;> exact ⟨_, rfl⟩
  | _ =>
    rcases reads _ (fun a => ⟨_, rfl⟩) with h | h
    · exact .inl ⟨rfl, h⟩
    · exact .inr ⟨fun _ => h.1, h.2⟩

end Sys2Proof.Machine
end

