-- ==== Sys2Proof/Laws/Micro.lean ====
section
/-! SUPPORT. What runs of micro-steps do (10_state.md R27), one lemma per part of an operation. -/

namespace Sys2Proof.Machine

/-- An idle machine makes no micro-step. -/
theorem microRun_idle {s : State} (h : s.seq = .idle) (n : Nat) : microRun n s = .next s := by
  induction n with
  | zero => rfl
  | succ n ih => rw [microRun, show microStep s = .next s by simp [microStep, h], andThen_next, ih]

/-- The rounds of CRC.BYTE from round j on. -/
theorem microRun_byteShift (k j : Nat) {s : State} {a : U32} (hj : k + j = 8) (h : s.acc = some a) :
    microRun (k + 1) (setSeq (.byteShift j) s) =
      .next (respond .done (setSeq .idle (writeAcc (rounds (k + 1) a) s))) := by
  induction k generalizing j s a with
  | zero =>
    rw [microRun]
    simp only [microStep, setSeq_seq, withAcc_setSeq]
    rw [withAcc_some h, if_neg (by simp [Config.rounds]; omega)]
    rfl
  | succ k ih =>
    rw [microRun]
    simp only [microStep, setSeq_seq, withAcc_setSeq]
    rw [withAcc_some h, if_pos (by simp [Config.rounds]; omega), andThen_next]
    exact ih (j + 1) (s := writeAcc (round a) s) (by omega) rfl

/-- The rounds of CRC.COMPUTE on byte i from round j on. -/
theorem microRun_computeShift (data : List Byte) (i k j : Nat) {s : State} {a : U32} (hj : k + j = 8)
    (h : s.acc = some a) :
    microRun (k + 1) (setSeq (.computeShift data i j) s) =
      .next (setSeq (computePhase data (i + 1)) (writeAcc (rounds (k + 1) a) s)) := by
  induction k generalizing j s a with
  | zero =>
    rw [microRun]
    simp only [microStep, setSeq_seq, withAcc_setSeq]
    rw [withAcc_some h, if_neg (by simp [Config.rounds]; omega)]
    rfl
  | succ k ih =>
    rw [microRun]
    simp only [microStep, setSeq_seq, withAcc_setSeq]
    rw [withAcc_some h, if_pos (by simp [Config.rounds]; omega), andThen_next]
    exact ih (j + 1) (s := writeAcc (round a) s) (by omega) rfl

/-- The bytes of CRC.COMPUTE from byte i on: nine micro-steps each. -/
theorem microRun_computePhase (data : List Byte) (d i : Nat) {s : State} {a : U32} (hd : data.length - i = d)
    (hi : i ≤ data.length) (h : s.acc = some a) :
    microRun (9 * d) (setSeq (computePhase data i) s) =
      .next (setSeq .computeFinal (writeAcc (absorb a (data.drop i)) s)) := by
  induction d generalizing i s a with
  | zero =>
    rw [computePhase, if_neg (by omega), List.drop_of_length_le (by omega)]
    simp [microRun, writeAcc, ← h, setSeq]
  | succ d ih =>
    have xor : microRun 1 (setSeq (.computeXor data i) s) =
        .next (setSeq (.computeShift data i 1) (writeAcc (xorByte a data[i]) s)) := by
      simp only [microRun, microStep, setSeq_seq, withAcc_setSeq]
      rw [List.getElem?_eq_getElem (by omega)]
      simp only
      rw [withAcc_some h]
      rfl
    rw [computePhase, if_pos (by omega), show 9 * (d + 1) = 1 + (7 + 1 + 9 * d) by omega, microRun_add, xor,
      andThen_next, microRun_add, microRun_computeShift data i 7 1 rfl rfl, andThen_next,
      ih (i + 1) (by omega) (by omega) rfl, List.drop_eq_getElem_cons (by omega : i < data.length)]
    rfl

/-- The element checks of HDR.BUILD from element i on: all pass, or the least failing one ends the operation. -/
theorem microRun_elementPhase (len : U64) (crc : U32) (r : Resolved) (d i : Nat) (s : State)
    (hd : r.res.length - i = d) (hi : i ≤ r.res.length) :
    (checkElements i (r.res.drop i) = none →
      microRun d (setSeq (elementPhase len crc r i) s) = .next (setSeq (.buildNorm len crc r) s)) ∧
    ∀ e, checkElements i (r.res.drop i) = some e →
      ∃ n, n < d ∧ e = .outOfRangeReservedElement (i + n) 0 255 ∧
        microRun n (setSeq (elementPhase len crc r i) s) = .next (setSeq (.buildCheckElement len crc r (i + n)) s) ∧
        microRun (n + 1) (setSeq (elementPhase len crc r i) s) = .next (raise e (setSeq .idle s)) := by
  induction d generalizing i s with
  | zero =>
    rw [elementPhase, if_neg (by omega), List.drop_of_length_le (by omega)]
    exact ⟨fun _ => rfl, fun e h => by cases h⟩
  | succ d ih =>
    have one : microStep (setSeq (.buildCheckElement len crc r i) s) =
        afterCheckStep (checkElement i r.res[i]) (elementPhase len crc r (i + 1))
          (setSeq (.buildCheckElement len crc r i) s) := by
      simp only [microStep, setSeq_seq]
      rw [List.getElem?_eq_getElem (by omega)]
    rw [elementPhase, if_pos (by omega), List.drop_eq_getElem_cons (by omega : i < r.res.length), checkElements]
    rcases checkElement_cases i (r.res[i]'(by omega)) with h | h
    · rw [h] at one ⊢
      obtain ⟨pass, fail⟩ := ih (i + 1) s (by omega) (by omega)
      refine ⟨fun hn => ?_, fun e he => ?_⟩
      · rw [microRun, one]
        exact pass hn
      · obtain ⟨n, h1, h2, h3, h4⟩ := fail e he
        refine ⟨n + 1, by omega, by rw [h2]; congr 1; omega, ?_, ?_⟩
        · rw [microRun, one, show i + (n + 1) = i + 1 + n by omega]
          exact h3
        · rw [microRun, one]
          exact h4
    · rw [h] at one ⊢
      refine ⟨fun hn => by simp at hn, fun e he => ?_⟩
      simp only [Option.some.injEq] at he
      subst he
      exact ⟨0, by omega, rfl, rfl, by rw [microRun, one]; rfl⟩

/-- A scalar check that passes goes on to the next check. -/
theorem microStep_checkPasses {len : U64} {crc : U32} {r : Resolved} {f : Field} (s : State)
    (h : checkField r f = none) :
    microStep (setSeq (.buildCheck len crc r f) s) = .next (setSeq (afterCheck len crc r f) s) := by
  simp only [microStep, setSeq_seq, h]
  rfl

/-- A scalar check that fails ends the operation with its error. -/
theorem microStep_checkFails {len : U64} {crc : U32} {r : Resolved} {f : Field} {e : ValidationError} (s : State)
    (h : checkField r f = some e) :
    microStep (setSeq (.buildCheck len crc r f) s) = .next (raise e (setSeq .idle s)) := by
  simp only [microStep, setSeq_seq, h]
  rfl

/-- The six stores and the delivery of the header. -/
theorem microRun_buildSer (len : U64) (crc : U32) (r : Resolved) (res47 : List Byte) (s : State) :
    microRun 6 (setSeq (.buildSer len crc r res47 .expectedSize []) s) =
      deliverHeader (ser64 len crc r res47) (setSeq .idle s) := by
  simp only [microRun, microStep, setSeq_seq, HdrField.next, andThen_next]
  exact andThen_id _

end Sys2Proof.Machine
end

