-- ==== Sys2Proof/Laws/PerInstr.lean ====
section
/-! SUPPORT. Per-instruction facts about the syntax: the word of each operation lies under exactly the row of the opcode
map that has its mnemonic (30_encoding.md R100). -/

namespace Sys2Proof.Laws.OneRow

/-- The rows that cover the operation's command word are the one with its mnemonic. -/
def Statement (i : Instr) : Prop :=
  (opcodeTable.filter fun row => row.covers (encode i).cmd).map OpcodeRow.mnemonic = [i.mnemonic]

theorem crcInit : Statement .crcInit := by unfold Statement; decide

theorem crcXorb (b : Byte) : Statement (.crcXorb b) := by
  unfold Statement; revert b; decide +kernel

theorem crcRound : Statement .crcRound := by unfold Statement; decide

theorem crcByte (b : Byte) : Statement (.crcByte b) := by
  unfold Statement; revert b; decide +kernel

theorem crcFinal : Statement .crcFinal := by unfold Statement; decide

theorem crcCompute (data : List Byte) : Statement (.crcCompute data) := by
  show (opcodeTable.filter fun row => row.covers 0x0600#16).map OpcodeRow.mnemonic = ["CRC.COMPUTE"]
  decide

theorem hdrBuild (len : U64) (crc : U32) (md : FirmwareMetadata) : Statement (.hdrBuild len crc md) := by
  show (opcodeTable.filter fun row => row.covers 0x1000#16).map OpcodeRow.mnemonic = ["HDR.BUILD"]
  decide

end Sys2Proof.Laws.OneRow
end

