-- ==== Sys2Proof/Machine/Listing.lean ====
section
/-! DEFINITION. The listing form of an operation (30_encoding.md R108): how the spec writes operation sequences. -/

namespace Sys2Proof.Machine

/-- A hexadecimal digit, in capitals as R108 writes it. -/
def hexDigit (n : Nat) : Char := if n < 10 then Char.ofNat (48 + n) else Char.ofNat (55 + n)

/-- A byte as R108 writes it, 0x31. -/
def byteText (b : Byte) : String :=
  "0x" ++ String.ofList [hexDigit (b.toNat / 16), hexDigit (b.toNat % 16)]

/-- A sequence in square brackets, its members separated by commas. -/
def listText (members : List String) : String := "[" ++ String.intercalate ", " members ++ "]"

/-- A checksum operand in hexadecimal. -/
def wordText (v : U32) : String :=
  "0x" ++ String.ofList (((be 4 v).map fun b => [hexDigit (b.toNat / 16), hexDigit (b.toNat % 16)]).flatten)

/-- One field of a metadata listing; a field that is not written is absent. -/
def fieldText (name : String) (v : Option Int) : List String :=
  match v with
  | none => []
  | some v => [name ++ "=" ++ toString v]

/-- The metadata between braces. -/
def metadataText (md : FirmwareMetadata) : String :=
  String.singleton (Char.ofNat 123) ++
    String.intercalate ", "
      (fieldText (Field.name .deviceType) md.deviceType ++ fieldText (Field.name .dataType) md.dataType ++
        fieldText (Field.name .protocolType) md.protocolType ++
        match md.reserved with
        | none => []
        | some vs => ["reserved=" ++ listText (vs.map toString)]) ++
    String.singleton (Char.ofNat 125)

/-- The operation as one line of a listing; `r` names its response where it has a value. -/
def listing (r : String) (i : Instr) : String :=
  match i with
  | .crcInit => "CRC.INIT"
  | .crcXorb b => "CRC.XORB " ++ byteText b
  | .crcRound => "CRC.ROUND"
  | .crcByte b => "CRC.BYTE " ++ byteText b
  | .crcFinal => "CRC.FINAL -> " ++ r
  | .crcCompute data => "CRC.COMPUTE " ++ listText (data.map byteText) ++ " -> " ++ r
  | .hdrBuild len crc md =>
    "HDR.BUILD len=" ++ toString len.toNat ++ ", crc=" ++ wordText crc ++ ", md=" ++ metadataText md ++ " -> " ++ r

end Sys2Proof.Machine
end

