-- ==== Sys2Proof/Tests/Slice0.lean ====
section
/-! SUPPORT. Tests on fixed values, expected results from spec/95_test_vectors.md and the rules' own examples, and for
each statement with hypotheses a witness that meets them. -/

namespace Sys2Proof.Tests

open Sys2Proof Sys2Proof.Machine

/- One proof at a time: checked side by side, the evaluations below ask for more threads than the check allows. -/
set_option Elab.async false

/-! ### Helpers -/

/-- A machine at rest whose accumulator holds a value. -/
def holding (a : U32) : State := ⟨some a, .idle, [], []⟩

/-- A machine at rest after reset to which inputs have been sent. -/
def sent (is : List HostInput) : State := ⟨none, .idle, is, []⟩

/-- The next state, if there is one. -/
def nextOf (o : Result) : Option State :=
  match o with
  | .next t => some t
  | .fault _ => none
  | .refused _ => none

/-- The reason of a refusal, if there is one. -/
def refusalOf (o : Result) : Option Refusal :=
  match o with
  | .next _ => none
  | .fault _ => none
  | .refused r => some r

/-- `ACC` after, if there is a next state and it holds a value. -/
def accOf (o : Result) : Option U32 := (nextOf o).bind State.acc

/-- The last response, if there is one. -/
def responseOf (o : Result) : Option Response := (nextOf o).bind fun t => t.responses.getLast?

/-- The operation a decoder answers, if it answers one. -/
def opOf? (o : Except DecodeError Instr) : Option Instr := o.toOption

/-- The reason a decoder refuses. -/
def whyNot (o : Except DecodeError Instr) : Option DecodeError :=
  match o with
  | .ok _ => none
  | .error e => some e

/-- Metadata with nothing present. -/
def noMeta : FirmwareMetadata := ⟨none, none, none, none⟩

/-- The cells of header H1's first 17 bytes (95_test_vectors.md T7). -/
def lastCells : Memory :=
  (List.range 17).zip [0x00, 0x00, 0x00, 0x00, 0x00, 0x00, 0x00, 0x05, 0x1D, 0x70, 0xB4, 0x7C, 0xFF, 0xFF, 0xFF, 0xFF,
    0xFF]

/-- A realisation with 8-bit metadata integers, two reserved elements and three payload bytes at most. -/
def small : Config.Params := ⟨some 8, some 2, some 3⟩

/-! ### WellFormed: an ill-formed term for each check (92_eei_decisions.md D4 to D6) -/

theorem test_wellFormed_refuses_deviceType :
    (Instr.hdrBuild 0 0 ⟨some 128, none, none, none⟩).wellFormed small = false := by decide +kernel
theorem test_wellFormed_refuses_dataType :
    (Instr.hdrBuild 0 0 ⟨none, some (-129), none, none⟩).wellFormed small = false := by decide +kernel
theorem test_wellFormed_refuses_protocolType :
    (Instr.hdrBuild 0 0 ⟨none, none, some 65535, none⟩).wellFormed small = false := by decide +kernel
theorem test_wellFormed_refuses_reservedElement :
    (Instr.hdrBuild 0 0 ⟨none, none, none, some [0, 128]⟩).wellFormed small = false := by decide +kernel
theorem test_wellFormed_refuses_reservedLength :
    (Instr.hdrBuild 0 0 ⟨none, none, none, some [0, 0, 0]⟩).wellFormed small = false := by decide +kernel
theorem test_wellFormed_refuses_payloadLength :
    (Instr.crcCompute [0, 0, 0, 0]).wellFormed small = false := by decide +kernel

/-- The bounds themselves are accepted: -128, 127, two elements, three bytes. -/
theorem test_wellFormed_accepts_bounds :
    (Instr.hdrBuild 0 0 ⟨some (-128), some 127, none, some [127, -128]⟩).wellFormed small = true ∧
    (Instr.crcCompute [0, 0, 0]).wellFormed small = true := by decide +kernel

/-- What the check refuses, the decoder refuses by name. -/
theorem test_decode_outsideParameters :
    whyNot (decodeAt small ⟨0x0600#16, .payload [0, 0, 0, 0]⟩) = some (.outsideParameters 0x0600#16) := by decide +kernel

/-! ### Decoding: words written bit by bit from 30_encoding.md R81 and R100 (95_test_vectors.md T9) -/

theorem test_decode_crcInit : opOf? (decode ⟨0b0000000100000000#16, .absent⟩) = some .crcInit := by decide +kernel
theorem test_decode_crcXorb : opOf? (decode ⟨0b0000001000110001#16, .absent⟩) = some (.crcXorb 0x31) := by decide +kernel
theorem test_decode_crcRound : opOf? (decode ⟨0b0000001100000000#16, .absent⟩) = some .crcRound := by decide +kernel
theorem test_decode_crcByte : opOf? (decode ⟨0b0000010011111111#16, .absent⟩) = some (.crcByte 0xFF) := by decide +kernel
theorem test_decode_crcFinal : opOf? (decode ⟨0b0000010100000000#16, .absent⟩) = some .crcFinal := by decide +kernel
theorem test_decode_crcCompute :
    opOf? (decode ⟨0b0000011000000000#16, .payload [1, 2]⟩) = some (.crcCompute [1, 2]) := by decide +kernel
theorem test_decode_hdrBuild :
    opOf? (decode ⟨0b0001000000000000#16,
      .build 5 0x1D70B47C [("Device_type", .integer 0), ("Reserved", .sequence [4])]⟩) =
      some (.hdrBuild 5 0x1D70B47C ⟨some 0, none, none, some [4]⟩) := by decide +kernel

/-- T9's reserved words, and the op codes next to the ends of the reserved ranges of R102. -/
theorem test_decode_reserved :
    ([0x0000#16, 0x0101#16, 0x0301#16, 0x0501#16, 0x0601#16, 0x0700#16, 0x0F00#16, 0x1001#16, 0x1100#16, 0xFFFF#16].map
      fun w => whyNot (decode ⟨w, .absent⟩)) =
    [0x0000#16, 0x0101#16, 0x0301#16, 0x0501#16, 0x0601#16, 0x0700#16, 0x0F00#16, 0x1001#16, 0x1100#16, 0xFFFF#16].map
      fun w => some (.reservedWord w) := by decide +kernel

/-- A record of another format. -/
theorem test_decode_recordMismatch :
    whyNot (decode ⟨0x0600#16, .absent⟩) = some (.recordMismatch 0x0600#16) ∧
    whyNot (decode ⟨0x0100#16, .payload []⟩) = some (.recordMismatch 0x0100#16) ∧
    whyNot (decode ⟨0x1000#16, .payload []⟩) = some (.recordMismatch 0x1000#16) := by decide +kernel

/-- Keys match exactly: `device_type` is unknown and ignored (D16); a key twice or a wrong value is refused (U10). -/
theorem test_decode_metadata :
    opOf? (decode ⟨0x1000#16, .build 0 0 [("device_type", .integer 7)]⟩) = some (.hdrBuild 0 0 noMeta) ∧
    whyNot (decode ⟨0x1000#16, .build 0 0 [("Data_type", .integer 1), ("Data_type", .integer 1)]⟩) =
      some (.malformedMetadata "Data_type") ∧
    whyNot (decode ⟨0x1000#16, .build 0 0 [("Reserved", .integer 1)]⟩) = some (.malformedMetadata "Reserved") := by
  decide +kernel

/-- What the host asks of the table words. -/
theorem test_decodeTableWord :
    decodeTableWord 16 0x0431 = some (.crcByte 0x31) ∧ decodeTableWord 16 0x0600 = some (.crcCompute []) ∧
    decodeTableWord 16 0x1000 = some (.hdrBuild 0 0 noMeta) ∧ decodeTableWord 16 0x0700 = none := by decide +kernel

/-- A placed word is the first operation after reset. -/
theorem test_withFetchWord :
    nextOf (step (State.reset.withFetchWord 16 0x0100)) = some ⟨some 0xFFFFFFFF, .idle, [], [.done]⟩ ∧
    refusalOf (step (State.reset.withFetchWord 16 0x0500)) = some .accUnwritten := by decide +kernel

/-- The listing form of 30_encoding.md R108, its own examples. -/
theorem test_listing :
    listing "r" (.crcByte 0x31) = "CRC.BYTE 0x31" ∧
    listing "r" (.crcCompute [0x01, 0x02]) = "CRC.COMPUTE [0x01, 0x02] -> r" := by decide +kernel

/-! ### The operations of CE -/

/-- R120: in the middle of a message too. -/
theorem test_crcInit : accOf (exec .crcInit (holding 0x12345678)) = some 0xFFFFFFFF := by decide +kernel

/-- T2: the low 24 bits are untouched; byte bit 0 lands on ACC[24]. -/
theorem test_crcXorb :
    accOf (exec (.crcXorb 0xAB) (holding 0x12345678)) = some 0xB9345678 ∧
    accOf (exec (.crcXorb 0x01) (holding 0)) = some 0x01000000 := by decide +kernel

/-- T1: the polynomial with the top bit clear, and a value that maps to 1. -/
theorem test_crcRound :
    accOf (exec .crcRound (holding 0x04C11DB7)) = some 0x09823B6E ∧
    accOf (exec .crcRound (holding 0x82608EDB)) = some 0x00000001 := by decide +kernel

/-- T3. -/
theorem test_crcByte :
    accOf (exec (.crcByte 0x31) (holding 0xFFFFFFFF)) = some 0x9EFBCF93 ∧
    accOf (exec (.crcByte 0xAB) (holding 0x12345678)) = some 0xABA10571 := by decide +kernel

/-- P1: the last operation of the byte-serial checksum; `ACC` stays. -/
theorem test_crcFinal :
    nextOf (exec .crcFinal (holding 0x0376E6E7)) = some ⟨some 0x0376E6E7, .idle, [], [.checksum 0xFC891918]⟩ := by decide +kernel

/-- T5.2 and T5.16: byte order matters. -/
theorem test_crcCompute :
    nextOf (exec (.crcCompute [0x31, 0x32, 0x33, 0x34, 0x35, 0x36, 0x37, 0x38, 0x39]) State.reset) =
      some ⟨some 0x0376E6E7, .idle, [], [.checksum 0xFC891918]⟩ ∧
    responseOf (exec (.crcCompute [0x39, 0x38, 0x37, 0x36, 0x35, 0x34, 0x33, 0x32, 0x31]) State.reset) =
      some (.checksum 0xA90273A4) := by decide +kernel

/-- T5.1: nothing at all. -/
theorem test_crcCompute_empty :
    nextOf (exec (.crcCompute []) State.reset) = some ⟨some 0xFFFFFFFF, .idle, [], [.checksum 0]⟩ := by decide +kernel

/-- T10: from the reset state the four readers of `ACC` are refused. -/
theorem test_unwritten :
    ∀ i ∈ [Instr.crcFinal, .crcByte 0x00, .crcRound, .crcXorb 0x00],
      refusalOf (exec i State.reset) = some .accUnwritten := by decide +kernel

/-- T6: five entries of the table, and its check on one step. -/
theorem test_table :
    tableEntry 0x0F = 0x384FBDBD ∧ tableEntry 0x41 = 0x30476DC0 ∧ tableEntry 0x98 = 0x0315D626 ∧
    tableEntry 0xCE = 0x61043093 ∧ tableEntry 0xFE = 0xB5365D03 ∧ tableByte 0xFFFFFFFF 0x31 = 0x9EFBCF93 := by
  decide +kernel

/-- The bit forms on T3's step (R131, R132). -/
theorem test_bit_forms :
    serialByte 0xFFFFFFFF 0x31 = 0x9EFBCF93 ∧ unround 0x993EE249 = 0xCEFFFFFF ∧ unround 0x09823B6E = 0x04C11DB7 := by
  decide +kernel

/-! ### The operation of HB -/

/-- H3: every field distinct. -/
theorem test_hdrBuild :
    responseOf (exec (.hdrBuild 0x0102030405060708 0xA1B2C3D4 ⟨some 4660, some 86, some 30874, some [222, 173, 190, 239]⟩)
      State.reset) =
    some (.ok ([0x01, 0x02, 0x03, 0x04, 0x05, 0x06, 0x07, 0x08, 0xA1, 0xB2, 0xC3, 0xD4, 0x12, 0x34, 0x56, 0x78] ++
      [0x9A, 0xDE, 0xAD, 0xBE, 0xEF] ++ List.replicate 43 0x00)) := by decide +kernel

/-- F12: the element at index 47 is checked although it would be cut off. -/
theorem test_hdrBuild_error :
    nextOf (exec (.hdrBuild 0 0 ⟨none, none, none, some (List.replicate 47 0 ++ [256])⟩) State.reset) =
      some ⟨none, .idle, [], [.err (.outOfRangeReservedElement 47 0 255)]⟩ := by decide +kernel

/-- The boundary lengths of R158: 0, 46, 47, 48. -/
theorem test_norm47 :
    norm47 [] = List.replicate 47 0x00 ∧ norm47 (List.replicate 46 1) = List.replicate 46 0x01 ++ [0x00] ∧
    norm47 (List.replicate 47 1) = List.replicate 47 0x01 ∧
    norm47 (List.replicate 47 1 ++ [2]) = List.replicate 47 0x01 := by decide +kernel

/-- P2: the header's decoded fields, the image's length, and that its consumer accepts it. -/
theorem test_packImage :
    (packImage [1, 2, 3, 4, 5] noMeta).map (fun r => r.toOption.map fun img =>
      (img.length, readHeader img, consumerVerdict img)) =
    some (some (69, ⟨5, 0x1D70B47C, 65535, 255, 65535, List.replicate 47 0x00⟩, some true)) := by decide +kernel

/-! ### Sequencing -/

/-- T3's second trace through the micro-steps: after the XOR and two rounds. -/
theorem test_microRun :
    nextOf (microRun 3 (setSeq (.byteXor 0x01) (holding 0xFFFFFFFF))) =
      some ⟨some 0xF6BCD925, .byteShift 3, [], []⟩ := by decide +kernel

/-- T10 through the micro-steps: CRC.BYTE is refused when it is issued, a reset behind it or not (R23). -/
theorem test_tick_unwritten :
    refusalOf (tick (sent [.issue ⟨0x0400#16, .absent⟩, .reset])) = some .accUnwritten ∧
    refusalOf (step (sent [.issue ⟨0x0400#16, .absent⟩, .reset])) = some .accUnwritten := by decide +kernel

/-- A reset in the middle of a byte: no response, no value (R220). -/
theorem test_reset_abandons :
    nextOf (tick ⟨some 5, .byteShift 4, [.reset], [.done]⟩) = some ⟨none, .idle, [], [.done]⟩ ∧
    nextOf (step ⟨some 5, .byteShift 4, [.reset], [.done]⟩) = some ⟨none, .idle, [], [.done]⟩ := by decide +kernel

/-! ### Witnesses: each statement's hypotheses met together -/

/-- Its value clauses: `b = 0`, and the rule's example. -/
theorem test_witness_CrcXorbXorsTheHighByte :
    (holding 0xFFFFFFFF).acc = some 0xFFFFFFFF ∧ State.reset.acc = none ∧ (0x31#8 : Byte) ≠ 0 := by decide +kernel

theorem test_witness_CrcRoundShiftsAndFeedsBack :
    (holding 0x80000000).acc = some 0x80000000 ∧ (holding 0x7FFFFFFF).acc = some 0x7FFFFFFF ∧
    State.reset.acc = none := by decide +kernel

theorem test_witness_CrcByteAbsorbsOneByte :
    (holding 0xFF000000).acc = some 0xFF000000 ∧ State.reset.acc = none := by decide +kernel

theorem test_witness_CrcFinalDeliversTheComplement :
    (holding 0x0376E6E7).acc = some 0x0376E6E7 ∧ State.reset.acc = none := by decide +kernel

/-- Every range at both its ends. -/
theorem test_witness_HdrBuildLaysOutTheHeader :
    ∀ md ∈ [FirmwareMetadata.mk (some 0) (some 0) (some 0) (some []), ⟨some 65535, some 255, some 65535, some [0, 255]⟩,
        noMeta, ⟨none, none, none, some (List.replicate 48 255)⟩],
      (0 ≤ md.deviceType.getD 65535 ∧ md.deviceType.getD 65535 ≤ 65535) ∧
      (0 ≤ md.dataType.getD 255 ∧ md.dataType.getD 255 ≤ 255) ∧
      (0 ≤ md.protocolType.getD 65535 ∧ md.protocolType.getD 65535 ≤ 65535) ∧
      ∀ x ∈ md.reserved.getD [], 0 ≤ x ∧ x ≤ 255 := by decide +kernel

/-- F1, F3, F4, F5, F6, F7, F11, F13, F14: each error at both ends of its range, and at the first and a late index. -/
theorem test_witness_HdrBuildReportsTheFirstViolation :
    ∀ p ∈ [(FirmwareMetadata.mk (some 65536) (some 256) (some (-5)) (some [999]),
            ValidationError.outOfRangeField .deviceType 0 65535),
        (⟨some (-1), none, none, none⟩, .outOfRangeField .deviceType 0 65535),
        (⟨none, some 256, some 70000, none⟩, .outOfRangeField .dataType 0 255),
        (⟨none, some (-1), none, none⟩, .outOfRangeField .dataType 0 255),
        (⟨none, none, some 65536, some [256]⟩, .outOfRangeField .protocolType 0 65535),
        (⟨none, none, some (-1), none⟩, .outOfRangeField .protocolType 0 65535),
        (⟨none, none, none, some [-1, 300]⟩, .outOfRangeReservedElement 0 0 255),
        (⟨none, none, none, some [255, 256]⟩, .outOfRangeReservedElement 1 0 255),
        (⟨some 0, some 0, some 0, some (List.replicate 99 0 ++ [1000])⟩, .outOfRangeReservedElement 99 0 255)],
      responseOf (exec (.hdrBuild 0 0 p.1) State.reset) = some (.err p.2) := by decide +kernel

/-- A build that is in range and one that is not. -/
theorem test_witness_HdrBuildSucceedsExactlyInRange :
    firstViolation (resolve noMeta) = none ∧ firstViolation (resolve ⟨none, none, none, some [10, 300, 20]⟩) ≠ none := by
  decide +kernel

/-- Also of BuiltHeaderReadsBack and HeaderVectorPlacesTheFields: a successful build, of 46 and of 48 elements. -/
theorem test_witness_ReservedIsPaddedOrCutTo47 :
    ∀ n ∈ [46, 48], ∃ t h,
      exec (.hdrBuild 46 0x11111111 ⟨none, none, none, some (List.replicate n 1)⟩) State.reset = .next t ∧
      t.responses = State.reset.responses ++ [.ok h] ∧ h.length = 64 := by
  intro n hn
  fin_cases hn
  · exact ⟨_, _, rfl, rfl, by decide +kernel⟩
  · exact ⟨_, _, rfl, rfl, by decide +kernel⟩

/-- Each default, and a present zero. -/
theorem test_witness_ResolveAppliesTheDefaults :
    noMeta.deviceType = none ∧ noMeta.dataType = none ∧ noMeta.protocolType = none ∧ noMeta.reserved = none ∧
    (FirmwareMetadata.mk (some 0) none none none).deviceType = some 0 := by decide +kernel

/-- P3's first build; `ACC` holds a value before it and after. Also of ResponseCodesAndBounds. -/
theorem test_witness_FailedBuildLeavesNothingBehind :
    ∃ t, exec (.hdrBuild 9 0xFC891918 ⟨none, none, none, some [10, 300, 20]⟩) (holding 0x0376E6E7) = .next t ∧
      t.responses = (holding 0x0376E6E7).responses ++ [.err (.outOfRangeReservedElement 1 0 255)] :=
  ⟨_, rfl, rfl⟩

/-- The first and the last offset of each store, and one outside; 47 bytes. -/
theorem test_witness_StorePrimitivesAreBigEndian :
    memRead (wrU64 0 0x0102030405060708 []) 0 = some 0x01 ∧ memRead (wrU64 0 0x0102030405060708 []) 7 = some 0x08 ∧
    memRead (wrU32 8 0x1D70B47C []) 8 = some 0x1D ∧ memRead (wrU32 8 0x1D70B47C []) 11 = some 0x7C ∧
    memRead (wrU16 12 0x1234 []) 12 = some 0x12 ∧ memRead (wrU16 12 0x1234 []) 13 = some 0x34 ∧
    memRead (wrU8 14 255 []) 14 = some 0xFF ∧ memRead (wrU8 14 255 []) 15 = none ∧
    (List.replicate 47 (0x00 : Byte)).length = 47 := by decide +kernel

/-- Two builds, of different supplied sequences, with one header; a sequence under and one at 47 elements. -/
theorem test_witness_HeadersDetermineTheirFields :
    (∃ t t' h, exec (.hdrBuild 1 2 ⟨none, none, none, some [4]⟩) State.reset = .next t ∧
      t.responses = State.reset.responses ++ [.ok h] ∧
      exec (.hdrBuild 1 2 ⟨some 65535, none, none, some [4, 0]⟩) (holding 3) = .next t' ∧
      t'.responses = (holding 3).responses ++ [.ok h]) ∧
    ([] : List Int).length < 47 ∧ 47 ≤ (List.replicate 47 (0 : Int)).length :=
  ⟨⟨_, _, _, rfl, rfl, rfl, rfl⟩, by decide, by decide⟩

/-- Reset first in line, at rest and in the middle of a byte; a step that takes a value away. -/
theorem test_witness_ResetEventClearsAccAndAbandons :
    (sent [.reset]).inputs = .reset :: [] ∧
    ∃ s t : State, s.seq = .byteShift 4 ∧ step s = .next t ∧ tick s = .next t ∧ s.acc ≠ none ∧ t.acc = none :=
  ⟨rfl, ⟨some 5, .byteShift 4, [.reset, .reset], [.done]⟩, _, rfl, rfl, rfl, by decide, rfl⟩

theorem test_witness_ResetEventLeavesTheOtherInputs : (sent [.reset, .reset]).inputs = .reset :: [.reset] := rfl

/-- No value held, and an operation that gives one. -/
theorem test_witness_UnwrittenAccRefusesItsReaders :
    State.reset.acc = none ∧ ∃ t, exec .crcInit State.reset = .next t ∧ t.acc ≠ none :=
  ⟨rfl, _, rfl, by decide⟩

/-- A next state, for an operation of each unit. Also of EveryOperationRespondsOnce. -/
theorem test_witness_OperationsChangeOnlyAccAndRespond :
    (∃ t, exec .crcFinal (holding 7) = .next t) ∧ ∃ t, exec (.hdrBuild 0 0 noMeta) State.reset = .next t :=
  ⟨⟨_, rfl⟩, _, rfl⟩

/-- Two states that agree on `ACC` alone, going on and refused. -/
theorem test_witness_OperationsReadOnlyAcc :
    (holding 7).acc = (⟨some 7, .idle, [.reset], [.done]⟩ : State).acc ∧ (∃ t, exec .crcRound (holding 7) = .next t) ∧
    State.reset.acc = (sent [.reset]).acc ∧ exec .crcRound State.reset = .refused .accUnwritten :=
  ⟨rfl, ⟨_, rfl⟩, rfl, rfl⟩

/-- An operation of CE that goes on; 47 reserved bytes. -/
theorem test_witness_NoOperationFaults :
    (∀ len crc md, Instr.crcFinal ≠ .hdrBuild len crc md) ∧ (∃ t, exec .crcFinal (holding 7) = .next t) ∧
    (norm47 [1, 2]).length = 47 :=
  ⟨fun _ _ _ h => (by cases h), ⟨_, rfl⟩, by decide +kernel⟩

/-- P5 with and without its first operation. -/
theorem test_witness_RunsCompleteExactlyWhenInitialised :
    initialisedRun State.reset.acc.isSome [.crcCompute [], .crcByte 0x01, .crcFinal] = true ∧
    initialisedRun State.reset.acc.isSome [.hdrBuild 0 0 noMeta, .crcByte 0x01, .crcFinal] = false := by decide +kernel

/-- Within bounded parameters, and one operand beyond each of the three. -/
theorem test_witness_DecodeOfEncodeIsTheOperation :
    (Instr.crcCompute [1, 2, 3]).wellFormed small = true ∧
    (Instr.hdrBuild 1 2 ⟨some (-128), none, some 0, some [127]⟩).wellFormed small = true ∧
    (Instr.hdrBuild 1 2 ⟨none, some 128, none, none⟩).wellFormed small = false ∧
    (Instr.hdrBuild 1 2 ⟨none, none, none, some [0, 0, 0]⟩).wellFormed small = false ∧
    (Instr.crcCompute [0, 0, 0, 0]).wellFormed small = false := by decide +kernel

/-- Also of DecodedWordsHaveOneRow. -/
theorem test_witness_EncodeOfDecodeIsTheRequest :
    opOf? (decode ⟨0x1000#16, .build 5 6 [("x", .other "y"), ("Data_type", .integer 0)]⟩) =
      some (.hdrBuild 5 6 ⟨none, some 0, none, none⟩) := by decide +kernel

/-- A word no row covers, sent to a machine at rest. -/
theorem test_witness_ReservedWordsAreRefused :
    (∀ row ∈ opcodeTable, row.covers 0x0601#16 = false) ∧ (∀ row ∈ opcodeTable, row.covers 0x0F00#16 = false) ∧
    (sent [.issue ⟨0x0601#16, .absent⟩]).seq = .idle ∧
    (sent [.issue ⟨0x0601#16, .absent⟩]).inputs = .issue ⟨0x0601#16, .absent⟩ :: [] := by decide +kernel

theorem test_witness_UnknownKeysAreIgnored :
    "device_type" ∉ ["Device_type", "Data_type", "Protocol_type", "Reserved"] := by decide +kernel

/-- A source that is read, an unknown key standing twice in it, and four that are not: a value of no kind, an integer
under `Reserved`, a sequence beside an integer under one scalar key, and a key twice with one value. -/
theorem test_witness_MetadataKeysGiveTheFields :
    (MetadataSource.toMetadata [("x", .other "1"), ("Reserved", .sequence [1]), ("x", .integer 2),
      ("Device_type", .integer 0)]).toOption = some ⟨some 0, none, none, some [1]⟩ ∧
    (MetadataSource.toMetadata [("Data_type", .other "1")]).toOption = none ∧
    (MetadataSource.toMetadata [("Reserved", .integer 1)]).toOption = none ∧
    (MetadataSource.toMetadata [("Device_type", .integer 0), ("Device_type", .sequence [0])]).toOption = none ∧
    (MetadataSource.toMetadata [("Protocol_type", .integer 3), ("Protocol_type", .integer 3)]).toOption = none := by
  decide +kernel

/-- Also of PlacedWordIsTakenNext's decoding, and of TicksRefineTheStep. -/
theorem test_witness_StepRunsTheDecodedOperation :
    (sent [.issue ⟨0x0431#16, .absent⟩]).seq = .idle ∧
    (sent [.issue ⟨0x0431#16, .absent⟩]).inputs = .issue ⟨0x0431#16, .absent⟩ :: [] ∧
    opOf? (decode ⟨0x0431#16, .absent⟩) = some (.crcByte 0x31) ∧ ([] : List HostInput).head? ≠ some .reset := by decide +kernel

theorem test_witness_IdleStepChangesNothing : (holding 7).seq = .idle ∧ (holding 7).inputs = [] := by decide +kernel

/-- The least and the greatest word of a table row. -/
theorem test_witness_PlacedWordIsTakenNext :
    0x0400 < 2 ^ 16 ∧ decodeTableWord 16 0x0400 = some (.crcByte 0x00) ∧
    0x04FF < 2 ^ 16 ∧ decodeTableWord 16 0x04FF = some (.crcByte 0xFF) := by decide +kernel

/-- Sound states other than reset, in the first and the last round of a byte, and a step from one of them. Also of
TickKeepsSound and SoundStatesNeverFault. -/
theorem test_witness_StepKeepsSound :
    (∀ k ∈ [1, 8], (⟨some 3, .byteShift k, [], [.checksum 5]⟩ : State).Inv) ∧
    ∃ t, step ⟨some 3, .byteShift 8, [], [.checksum 5]⟩ = .next t :=
  ⟨fun k hk => ⟨by simp [Response.wf], by fin_cases hk <;> simp [Seq.wf]⟩, _, rfl⟩

/-- Sound states of HDR.BUILD: before the last element check, before the first store and before the last, and a
micro-step from each. -/
theorem test_witness_TickKeepsSound :
    ((⟨none, .buildCheckElement 0 0 (resolve ⟨none, none, none, some [7, 300]⟩) 1, [], []⟩ : State).Inv) ∧
    (∃ t, tick ⟨none, .buildCheckElement 0 0 (resolve ⟨none, none, none, some [7, 300]⟩) 1, [], []⟩ = .next t) ∧
    ((⟨none, .buildSer 0 0 (resolve noMeta) (norm47 []) .expectedSize [], [], []⟩ : State).Inv) ∧
    (∃ t, tick ⟨none, .buildSer 0 0 (resolve noMeta) (norm47 []) .expectedSize [], [], []⟩ = .next t) ∧
    ((⟨none, .buildSer 5 0x1D70B47C (resolve noMeta) (norm47 []) .reserved lastCells, [], []⟩ : State).Inv) ∧
    ∃ t, tick ⟨none, .buildSer 5 0x1D70B47C (resolve noMeta) (norm47 []) .reserved lastCells, [], []⟩ = .next t :=
  ⟨⟨by simp, by decide, fun f => by cases f <;> decide, by decide⟩, ⟨_, rfl⟩, ⟨by simp, by decide, rfl, rfl⟩, ⟨_, rfl⟩,
    ⟨by simp, by decide, rfl, by decide +kernel⟩, _, rfl⟩

/-- A step that starts in the middle of an operation. -/
theorem test_witness_StepEndsIdle : ∃ t, step ⟨some 3, .byteShift 2, [], []⟩ = .next t := ⟨_, rfl⟩

/-- The last offsets of the header space. -/
theorem test_witness_HeaderSpaceStaysCanonical :
    Memory.wf [(0, 1)] = true ∧ 17 + (norm47 []).length ≤ 64 ∧ (norm47 []).length = 47 := by decide +kernel

theorem test_witness_MicroStepsGiveTheOperation : State.reset.seq = .idle ∧ (holding 7).seq = .idle := by decide +kernel

/-- A held value, a build in range, and one whose second element is out of range. -/
theorem test_witness_MicroStepCounts :
    (holding 7).acc ≠ none ∧ firstViolation (resolve noMeta) = none ∧
    firstViolation (resolve ⟨none, none, none, some [10, 300, 20]⟩) = some (.outOfRangeReservedElement 1 0 255) := by decide +kernel

/-- An operation that goes on and one that is refused. -/
theorem test_witness_ExpansionsAgree :
    (∃ t, exec (.crcByte 1) (holding 7) = .next t) ∧ exec (.crcByte 1) State.reset = .refused .accUnwritten :=
  ⟨⟨_, rfl⟩, rfl⟩

/-- The lowest and the highest bit. -/
theorem test_witness_RoundIsTheGaloisRegister :
    galoisBit 0x80000000 0 = true ∧ galoisBit 0x40000000 31 = true ∧ galoisBit 0x80000000 31 = false := by decide +kernel

/-- Also of ByteIsEightSerialBits and AccIsThePolynomialRemainder. -/
theorem test_witness_ByteIsTheTableForm : (holding 0x12345678).acc = some 0x12345678 := rfl

/-- T5.17: the message whose checksum stands behind it. -/
theorem test_witness_MessageWithItsChecksumHasTheResidue :
    nextOf (exec (.crcCompute [1, 2, 3, 4, 5]) State.reset) =
      some ⟨some 0xE28F4B83, .idle, [], State.reset.responses ++ [.checksum 0x1D70B47C]⟩ ∧
    nextOf (exec (.crcCompute [1, 2, 3, 4, 5, 0x1D, 0x70, 0xB4, 0x7C]) State.reset) =
      some ⟨some 0xC704DD7B, .idle, [], [.checksum 0x38FB2284]⟩ := by decide +kernel

/-- An image, of an empty payload; fewer than 64 bytes get no verdict (log entry 21). -/
theorem test_witness_PackedImagesAreAccepted :
    ((packImage [] noMeta).bind fun r => r.toOption.map List.length) = some 64 ∧ consumerVerdict [] = none := by
  decide +kernel

/-- Two copies, the second of which steps. -/
theorem test_witness_CopiesShareNothing :
    ∃ cs', stepCopy [holding 7, sent [.issue ⟨0x0100#16, .absent⟩]] ⟨1, by decide⟩ = .next cs' := ⟨_, rfl⟩

end Sys2Proof.Tests
end

