-- ==== Sys2Proof/Proofs/State.lean ====
section
/-! State and reset (10_state.md): which operations need a value in `ACC`, which ones give it one, and what the two API
operations respond. -/

namespace Sys2Proof.Machine

/-! ### Operations while `ACC` holds no value (R23) -/

theorem exec_refused_of_needsAcc {i : Instr} {s : State} (hi : needsAcc i = true) (hs : s.acc = none) :
    exec i s = .refused .accUnwritten := by
  rcases exec_outcome i s with ⟨-, -, h⟩ | ⟨h, -⟩
  · exact h
  · exact absurd hs (h hi)

/-! ### `HDR.BUILD` is the source's `build_header` (30_encoding.md R108) -/

theorem exec_hdrBuild (len : U64) (crc : U32) (md : FirmwareMetadata) (s : State) :
    exec (.hdrBuild len crc md) s =
      match buildHeader len crc md with
      | .ok h => .next (respond (.ok h) s)
      | .error e => .next (respond (.err e) s) := by
  have hlen := layout_length len crc (resolve md) (norm47_length (resolve md).res)
  simp only [exec, execHdrBuild_eq, buildHeader, ser64_eq, headerBytes_cells _ hlen]
  cases firstViolation (resolve md) <;> rfl

theorem buildHeader_ok_length {len : U64} {crc : U32} {md : FirmwareMetadata} {h : List Byte}
    (hb : buildHeader len crc md = .ok h) : h.length = 64 := by
  have hlen := layout_length len crc (resolve md) (norm47_length (resolve md).res)
  rw [buildHeader, ser64_eq, headerBytes_cells _ hlen] at hb
  cases hv : firstViolation (resolve md) with
  | none => rw [hv] at hb; cases hb; exact hlen
  | some e => rw [hv] at hb; cases hb

/-- Building a header leaves `ACC` as it is (R21). -/
theorem exec_hdrBuild_acc {len : U64} {crc : U32} {md : FirmwareMetadata} {s t : State}
    (h : exec (.hdrBuild len crc md) s = .next t) : t.acc = s.acc := by
  rw [exec_hdrBuild] at h
  cases hb : buildHeader len crc md <;> (rw [hb] at h; cases h; rfl)

/-- An operation that finds no value in `ACC` and leaves one there is one that gives it its value (R21, R23). -/
theorem initialises_of_acc_written {i : Instr} {s t : State} (hs : s.acc = none) (h : exec i s = .next t)
    (ht : t.acc ≠ none) : initialises i = true := by
  have hread : needsAcc i ≠ true := fun hi => by rw [exec_refused_of_needsAcc hi hs] at h; cases h
  cases i with
  | crcInit => rfl
  | crcCompute data => rfl
  | hdrBuild len crc md => exact absurd ((exec_hdrBuild_acc h).trans hs) ht
  | crcXorb b => exact absurd rfl hread
  | crcRound => exact absurd rfl hread
  | crcByte b => exact absurd rfl hread
  | crcFinal => exact absurd rfl hread

theorem initialises_iff (i : Instr) : initialises i = true ↔ i = .crcInit ∨ ∃ data, i = .crcCompute data := by
  cases i <;> simp [initialises]

/-! ### The obligations -/

/-- Settles O21: neither operation's response is computed from the state. `CRC.COMPUTE` responds with
`computeChecksum`, and `HDR.BUILD` with what `buildHeader` returns. -/
theorem apiOperationsArePure : Obligations.ApiOperationsArePure := by
  refine ⟨fun data => ⟨computeChecksum data, fun s => ⟨_, rfl, rfl⟩⟩, fun len crc md => ?_⟩
  cases hb : buildHeader len crc md with
  | ok h =>
    exact .inl ⟨h, buildHeader_ok_length hb, fun s => ⟨respond (.ok h) s, by rw [exec_hdrBuild, hb], rfl⟩⟩
  | error e => exact .inr ⟨e, fun s => ⟨respond (.err e) s, by rw [exec_hdrBuild, hb], rfl⟩⟩

/-- Settles O17, by the definition of the state after reset (R36). -/
theorem resetLeavesAccWithoutValue : Obligations.ResetLeavesAccWithoutValue :=
  ⟨rfl, rfl, rfl⟩

/-- Settles O20: the readers are the operations that need `ACC`, and one that leaves a value where there was none is
one that initialises it. -/
theorem unwrittenAccRefusesItsReaders : Obligations.UnwrittenAccRefusesItsReaders := by
  refine ⟨rfl, fun s hs => ?_⟩
  have refused {i : Instr} (hi : needsAcc i = true) := exec_refused_of_needsAcc hi hs
  exact ⟨fun _ => refused rfl, refused rfl, fun _ => refused rfl, refused rfl,
    fun i _ h ht => (initialises_iff i).1 (initialises_of_acc_written hs h ht)⟩

end Sys2Proof.Machine
end

