-- ==== Sys2Proof/Proofs/Memory.lean ====
section
/-! The header's bytes (20_memory.md R53, R60): which byte of which operand stands at each offset, and that a big-endian
reading of the built header gives the operands back. -/

namespace Sys2Proof.Machine

/-! ### Big-endian bytes (00_scope.md R9) -/

theorem frombe_append_singleton (bs : List Byte) (b : Byte) : frombe (bs ++ [b]) = frombe bs * 256 + b.toNat := by
  simp [frombe]

/-- The last of n + 1 bytes is the low one; those before it are the n bytes of the rest. -/
theorem be_succ {w : Nat} (n : Nat) (v : BitVec w) : be (n + 1) v = be n (v >>> 8) ++ [v.extractLsb' 0 8] := by
  have shifted : ∀ j ∈ List.range n,
      v.extractLsb' (8 * (n + 1 - 1 - j)) 8 = (v >>> 8).extractLsb' (8 * (n - 1 - j)) 8 := by
    intro j hj
    have hjn : 8 * (n + 1 - 1 - j) = 8 + 8 * (n - 1 - j) := by have := List.mem_range.1 hj; omega
    ext i
    simp only [BitVec.getElem_extractLsb', BitVec.getLsbD_ushiftRight, hjn, Nat.add_assoc]
  simp only [be, List.range_succ, List.map_append, List.map_cons, List.map_nil, List.map_congr_left shifted]
  simp

/-- The n bytes of a number, read back, are the number cut to 8 n bits. -/
theorem frombe_be {w : Nat} (n : Nat) (v : BitVec w) : frombe (be n v) = v.toNat % 256 ^ n := by
  induction n generalizing v with
  | zero => simp [be, frombe, Nat.mod_one]
  | succ n ih =>
    have hrest : (v >>> 8).toNat = v.toNat / 256 := by simp [Nat.shiftRight_eq_div_pow]
    have hlow : (v.extractLsb' 0 8).toNat = v.toNat % 256 := by simp [BitVec.extractLsb'_toNat]
    rw [be_succ, frombe_append_singleton, ih, hrest, hlow, Nat.pow_succ', Nat.mod_mul]
    ring

/-- As many bytes as the number is wide give the number back. -/
theorem frombe_be_of_width {w n : Nat} (v : BitVec w) (hw : w = 8 * n) : frombe (be n v) = v.toNat := by
  rw [frombe_be]
  refine Nat.mod_eq_of_lt ?_
  have hpow : 256 ^ n = 2 ^ w := by rw [hw, Nat.pow_mul]
  exact hpow ▸ v.isLt

/-! ### A checked integer fits its field exactly (30_encoding.md R89) -/

theorem toNat_toU8 {x : Int} (hlo : 0 ≤ x) (hhi : x ≤ 255) : ((toU8 x).toNat : Int) = x := by
  simp only [toU8, BitVec.toNat_ofInt]
  omega

theorem toNat_toU16 {x : Int} (hlo : 0 ≤ x) (hhi : x ≤ 65535) : ((toU16 x).toNat : Int) = x := by
  simp only [toU16, BitVec.toNat_ofInt]
  omega

/-! ### The layout, byte by byte and field by field (20_memory.md R60) -/

theorem layout_eq_bytes (len : U64) (crc : U32) (r : Resolved) (res47 : List Byte) :
    layout len crc r res47 =
      [len.extractLsb' 56 8, len.extractLsb' 48 8, len.extractLsb' 40 8, len.extractLsb' 32 8,
       len.extractLsb' 24 8, len.extractLsb' 16 8, len.extractLsb' 8 8, len.extractLsb' 0 8,
       crc.extractLsb' 24 8, crc.extractLsb' 16 8, crc.extractLsb' 8 8, crc.extractLsb' 0 8,
       (toU16 r.dev).extractLsb' 8 8, (toU16 r.dev).extractLsb' 0 8, toU8 r.dat,
       (toU16 r.pro).extractLsb' 8 8, (toU16 r.pro).extractLsb' 0 8] ++ res47 := by
  have hdat : (toU8 r.dat).extractLsb' 0 8 = toU8 r.dat := BitVec.extractLsb'_eq_self
  simp [layout, be, List.range_succ, hdat]

theorem getElem?_slice {o n j : Nat} (h : List Byte) (hj : j < n) : (slice o n h)[j]? = h[o + j]? := by
  simp [slice, hj]

/-- The layout parsed back, big-endian: each field as the number it was written from (20_memory.md R53). -/
theorem readHeader_layout (len : U64) (crc : U32) (r : Resolved) {res47 : List Byte} (hres : res47.length = 47) :
    readHeader (layout len crc r res47) =
      ⟨len.toNat, crc.toNat, (toU16 r.dev).toNat, (toU8 r.dat).toNat, (toU16 r.pro).toNat, res47⟩ := by
  simp [readHeader, layout, slice, List.drop_append, List.drop_eq_nil_of_le, List.take_of_length_le,
    hres, frombe_be_of_width]

/-! ### What a build responds -/

/-- A build whose checks pass responds with the layout and changes nothing else. -/
theorem exec_hdrBuild_of_passed {len : U64} {crc : U32} {md : FirmwareMetadata}
    (hv : firstViolation (resolve md) = none) (s : State) :
    exec (.hdrBuild len crc md) s =
      .next (respond (.ok (layout len crc (resolve md) (norm47 (resolve md).res))) s) := by
  rw [exec, execHdrBuild_eq, hv]

/-- A build that responds `Ok(h)` has passed its checks, and h is the layout. -/
theorem layout_of_exec_hdrBuild_ok {len : U64} {crc : U32} {md : FirmwareMetadata} {s t : State} {h : List Byte}
    (hexec : exec (.hdrBuild len crc md) s = .next t) (hok : t.responses = s.responses ++ [.ok h]) :
    firstViolation (resolve md) = none ∧ h = layout len crc (resolve md) (norm47 (resolve md).res) := by
  cases hv : firstViolation (resolve md) with
  | none =>
    rw [exec_hdrBuild_of_passed hv] at hexec
    cases hexec
    simpa [eq_comm] using hok
  | some e =>
    rw [exec, execHdrBuild_eq, hv] at hexec
    cases hexec
    simp at hok

/-! ### The obligations -/

/-- Settles O7: in range, no check fails, so the build responds with the layout, whose bytes are the listed ones. -/
theorem hdrBuildLaysOutTheHeader : Obligations.HdrBuildLaysOutTheHeader := by
  rintro s len crc md dev dat pro res rfl rfl rfl rfl hdev hdev' hdat hdat' hpro hpro' hres
  have hv : firstViolation (resolve md) = none :=
    (firstViolation_none _).2 ⟨⟨hdev, hdev'⟩, ⟨hdat, hdat'⟩, ⟨hpro, hpro'⟩, hres⟩
  rw [exec_hdrBuild_of_passed hv, layout_eq_bytes]
  rfl

/-- Settles O14: each field's slice of the layout is the bytes of the operand, which `frombe` reads back; a scalar that
has passed its check is its field's value exactly. -/
theorem builtHeaderReadsBack : Obligations.BuiltHeaderReadsBack := by
  intro s t len crc md h hexec hok
  obtain ⟨hv, rfl⟩ := layout_of_exec_hdrBuild_ok hexec hok
  obtain ⟨⟨hdev, hdev'⟩, ⟨hdat, hdat'⟩, ⟨hpro, hpro'⟩, -⟩ := (firstViolation_none _).1 hv
  obtain ⟨hsize, hcrc, hdev16, hdat8, hpro16, hraw⟩ := HeaderFields.mk.inj
    (readHeader_layout len crc (resolve md) (norm47_length (resolve md).res))
  refine ⟨hsize, hcrc, ?_, ?_, ?_, fun j hj => ?_⟩
  · rw [hdev16]; exact toNat_toU16 hdev hdev'
  · rw [hdat8]; exact toNat_toU8 hdat hdat'
  · rw [hpro16]; exact toNat_toU16 hpro hpro'
  · rw [← getElem?_slice _ hj, hraw]; rfl

end Sys2Proof.Machine
end

