-- ==== Sys2Proof/Proofs/Encoding.lean ====
section
/-! Encoding (30_encoding.md): the response each operation ends with, the words no row of the opcode map covers, and
the metadata keys the decoder does not read. -/

namespace Sys2Proof

/-! ### What a row of the opcode map covers (R100) -/

/-- Every row fixes the operation code; a row of format B leaves the immediate free, one of format N or X fixes it
at zero. -/
theorem opcodeTable_masks : ∀ row ∈ opcodeTable, immOf row.pattern = 0x00#8 ∧
    (row.format = .b ∧ row.mask = 0xFF00#16 ∨ row.format ≠ .b ∧ row.mask = 0xFFFF#16) := by decide

theorem and_high_mask_eq_iff {p : U16} (hp : immOf p = 0x00#8) (w : U16) :
    w &&& 0xFF00#16 = p ↔ opOf w = opOf p := by
  have hpattern : p &&& 0xFF00#16 = p := by
    rw [and_high_mask]
    conv_rhs => rw [word_of_fields p, hp]
    simp
  constructor
  · rintro rfl
    rw [and_high_mask]
    simpa using (opOf_or (opOf w) 0x00#8).symm
  · intro h
    rw [and_high_mask, h, ← and_high_mask, hpattern]

theorem covers_iff {row : OpcodeRow} (hrow : row ∈ opcodeTable) (w : U16) :
    row.covers w = true ↔ opOf w = opOf row.pattern ∧ (row.format = .b ∨ immOf w = 0x00#8) := by
  rw [OpcodeRow.covers, beq_iff_eq]
  obtain ⟨himm, ⟨hb, hmask⟩ | ⟨hnx, hmask⟩⟩ := opcodeTable_masks row hrow
  · simp [hmask, hb, and_high_mask_eq_iff himm]
  · have hall : w &&& 0xFFFF#16 = w := BitVec.and_allOnes
    rw [hmask, hall, or_iff_right hnx]
    exact ⟨fun h => ⟨congrArg opOf h, (congrArg immOf h).trans himm⟩, fun ⟨ho, hi⟩ => word_ext ho (hi.trans himm.symm)⟩

/-! ### The reserved words (R102) -/

theorem no_row_covers_iff (w : U16) :
    (∀ row ∈ opcodeTable, row.covers w = false) ↔
      opOf w ≠ 0x02#8 ∧ opOf w ≠ 0x04#8 ∧
        (opOf w ∈ [0x01#8, 0x03#8, 0x05#8, 0x06#8, 0x10#8] → immOf w ≠ 0x00#8) := by
  have codes : opcodeTable.map (fun row => (opOf row.pattern, row.format)) =
      [(0x01#8, .n), (0x02#8, .b), (0x03#8, .n), (0x04#8, .b), (0x05#8, .n), (0x06#8, .x), (0x10#8, .x)] := by decide
  calc (∀ row ∈ opcodeTable, row.covers w = false)
      ↔ ∀ row ∈ opcodeTable, ¬ (opOf w = opOf row.pattern ∧ (row.format = .b ∨ immOf w = 0x00#8)) :=
        forall₂_congr fun row hrow => by rw [← covers_iff hrow, Bool.not_eq_true]
    _ ↔ ∀ c ∈ opcodeTable.map (fun row => (opOf row.pattern, row.format)),
          ¬ (opOf w = c.1 ∧ (c.2 = .b ∨ immOf w = 0x00#8)) := by rw [List.forall_mem_map]
    _ ↔ _ := by
        simp only [codes, List.forall_mem_cons]
        grind

/-- The words no row covers, at the boundaries R102 lists them by. -/
theorem no_row_covers_iff_reserved (w : U16) :
    (∀ row ∈ opcodeTable, row.covers w = false) ↔
      ((w.toNat / 256 = 0 ∨ (7 ≤ w.toNat / 256 ∧ w.toNat / 256 ≤ 0x0F) ∨ 0x11 ≤ w.toNat / 256) ∨
        (w.toNat / 256 ∈ [0x01, 0x03, 0x05, 0x06, 0x10] ∧ w.toNat % 256 ≠ 0)) := by
  rw [no_row_covers_iff]
  simp only [ne_eq, ← BitVec.toNat_inj, opOf_toNat, immOf_toNat, List.mem_cons, List.not_mem_nil, or_false,
    BitVec.toNat_ofNat]
  omega

theorem decode_of_no_row_covers {r : Request} (h : ∀ row ∈ opcodeTable, row.covers r.cmd = false) :
    decode r = .error (.reservedWord r.cmd) := by
  obtain ⟨hxorb, hbyte, hnx⟩ := (no_row_covers_iff r.cmd).1 h
  rw [decode_eq_decodeOp, decodeOp, if_neg hxorb, if_neg hbyte]
  by_cases himm : immOf r.cmd = 0x00#8
  · have hop : opOf r.cmd ∉ [0x01#8, 0x03#8, 0x05#8, 0x06#8, 0x10#8] := fun hmem => hnx hmem himm
    simp only [List.mem_cons, List.not_mem_nil, or_false, not_or] at hop
    simp [himm, hop]
  · rw [if_pos himm]

/-! ### Metadata keys (R96, R104) -/

theorem valuesAt_insert_of_ne {k k' : String} (hk : k ≠ k') (v : MetaValue) (pre post : MetadataSource) :
    MetadataSource.valuesAt k' (pre ++ (k, v) :: post) = MetadataSource.valuesAt k' (pre ++ post) := by
  have hskip : MetadataSource.valuesAt k' ((k, v) :: post) = MetadataSource.valuesAt k' post := by
    simp [MetadataSource.valuesAt, hk]
  rw [valuesAt_append, valuesAt_append, hskip]

theorem toMetadata_insert_unknown {k : String} (hk : k ∉ knownKeys) (v : MetaValue) (pre post : MetadataSource) :
    MetadataSource.toMetadata (pre ++ (k, v) :: post) = MetadataSource.toMetadata (pre ++ post) :=
  toMetadata_congr fun _ hknown => valuesAt_insert_of_ne (ne_of_mem_of_not_mem hknown hk).symm v pre post

/-- The decoder sees a metadata source only through the metadata read from it. -/
theorem decode_build_congr {src src' : MetadataSource} (h : src.toMetadata = src'.toMetadata) (cmd : U16) (len : U64)
    (crc : U32) : decode ⟨cmd, .build len crc src⟩ = decode ⟨cmd, .build len crc src'⟩ := by
  simp only [decode_eq_decodeOp, decodeOp, takeNoRecord, takePayload, takeBuild, h]

end Sys2Proof

namespace Sys2Proof.Machine

theorem step_refused_of_decode_error {s : State} {r : Request} {rest : List HostInput} {e : DecodeError}
    (hseq : s.seq = .idle) (hinputs : s.inputs = .issue r :: rest) (hdecode : decode r = .error e) :
    step s = .refused (.undecodable e) := by
  simp only [step, advance, hinputs, hseq, takeRequest, hdecode]

/-! ### The obligations -/

/-- Settles O23, by cases on the operation: what each responds stands in its meaning, and `HDR.BUILD` responds with
what `buildHeader` returns. -/
theorem everyOperationRespondsOnce : Obligations.EveryOperationRespondsOnce := by
  intro i s t h
  cases i with
  | crcInit => cases h; exact ⟨.done, rfl, rfl⟩
  | crcCompute data => cases h; exact ⟨.checksum (computeChecksum data), rfl, _, rfl⟩
  | crcFinal =>
    obtain ⟨a, -, h⟩ := withAcc_next h
    cases h
    exact ⟨.checksum (finalOf a), rfl, _, rfl⟩
  | hdrBuild len crc md =>
    rw [exec_hdrBuild] at h
    cases hb : buildHeader len crc md with
    | ok hdr => rw [hb] at h; cases h; exact ⟨.ok hdr, rfl, .inl ⟨hdr, rfl, buildHeader_ok_length hb⟩⟩
    | error e => rw [hb] at h; cases h; exact ⟨.err e, rfl, .inr ⟨e, rfl⟩⟩
  | crcXorb _ | crcRound | crcByte _ =>
    obtain ⟨a, -, h⟩ := withAcc_next h
    cases h
    exact ⟨.done, rfl, rfl⟩

/-- Settles O30: a word no row covers has none of the operation codes the decoder asks for, or an immediate its format
does not take. -/
theorem reservedWordsAreRefused : Obligations.ReservedWordsAreRefused := by
  refine fun cmd record => ⟨no_row_covers_iff_reserved cmd, fun h => ?_⟩
  have hdecode : decode ⟨cmd, record⟩ = .error (.reservedWord cmd) := decode_of_no_row_covers h
  exact ⟨hdecode, fun s rest hseq hinputs => step_refused_of_decode_error hseq hinputs hdecode⟩

/-- Settles O32: a key that is not one of the four adds no value under any of them, and only those values are read. -/
theorem unknownKeysAreIgnored : Obligations.UnknownKeysAreIgnored := by
  intro pre post k v hk
  have hread := toMetadata_insert_unknown (show k ∉ knownKeys from hk) v pre post
  exact ⟨hread, decode_build_congr hread⟩

end Sys2Proof.Machine
end

