-- ==== Sys2Proof/Proofs/Checksum.lean ====
section
/-! The checksum engine's operations (40_checksum_engine.md section 1): the encoding of each, its effect on `ACC` in
every state, and the values its rule lists. -/

namespace Sys2Proof

/-! ### Decoding gives an encoded operation back (30_encoding.md R100) -/

theorem opOf_xorbWord (b : Byte) : opOf (0x0200#16 ||| b.setWidth 16) = 0x02#8 := opOf_or 0x02#8 b
theorem immOf_xorbWord (b : Byte) : immOf (0x0200#16 ||| b.setWidth 16) = b := immOf_or 0x02#8 b
theorem opOf_byteWord (b : Byte) : opOf (0x0400#16 ||| b.setWidth 16) = 0x04#8 := opOf_or 0x04#8 b
theorem immOf_byteWord (b : Byte) : immOf (0x0400#16 ||| b.setWidth 16) = b := immOf_or 0x04#8 b

theorem decode_encode (i : Instr) : decode (encode i) = .ok i := by
  rw [decode_eq_decodeOp]
  cases i with
  | crcXorb b => simp [encode, decodeOp, takeNoRecord, opOf_xorbWord, immOf_xorbWord]
  | crcByte b => simp [encode, decodeOp, takeNoRecord, opOf_byteWord, immOf_byteWord]
  | crcCompute data => simp [encode, decodeOp, takePayload, opOf, immOf]
  | hdrBuild len crc md => simp [encode, decodeOp, takeBuild, opOf, immOf, toSource_toMetadata]
  | crcInit | crcRound | crcFinal => rfl

end Sys2Proof

namespace Sys2Proof.Machine

variable {s : State} {a : U32}

/-! ### The steps on the accumulator -/

/-- The high-byte XOR touches `ACC[31:24]` (R121). -/
theorem xorByte_highByte (a : U32) (b : Byte) : (xorByte a b).extractLsb' 24 8 = a.extractLsb' 24 8 ^^^ b := by
  ext i hi
  have hhigh : 24 + i < 32 := by omega
  simp [xorByte, byteOperand, hhigh, BitVec.getLsbD_eq_getElem, hi]

/-- The high-byte XOR leaves `ACC[23:0]` as it is (R121). -/
theorem xorByte_lowBits (a : U32) (b : Byte) : (xorByte a b).extractLsb' 0 24 = a.extractLsb' 0 24 := by
  ext i hi
  simp [xorByte, byteOperand, hi]

theorem xorByte_zero (a : U32) : xorByte a 0 = a := by
  simp [xorByte, byteOperand]

theorem xorByte_xorByte (a : U32) (b : Byte) : xorByte (xorByte a b) b = a := by
  simp [xorByte]

/-- Absorbing a byte is the high-byte XOR and the round eight times (R123). -/
theorem byteStep_eq_iterate (a : U32) (b : Byte) : byteStep a b = round^[8] (xorByte a b) :=
  rounds_eq_iterate 8 _

theorem absorb_eq_foldl_iterate (a : U32) (data : List Byte) :
    absorb a data = data.foldl (fun y b => round^[8] (xorByte y b)) a := by
  rw [absorb, show byteStep = _ from funext₂ byteStep_eq_iterate]

/-! ### What each operation does to the state -/

theorem exec_crcXorb (b : Byte) (h : s.acc = some a) :
    exec (.crcXorb b) s = .next { s with acc := some (xorByte a b), responses := s.responses ++ [.done] } :=
  withAcc_some h _

theorem exec_crcRound (h : s.acc = some a) :
    exec .crcRound s = .next { s with acc := some (round a), responses := s.responses ++ [.done] } :=
  withAcc_some h _

theorem exec_crcByte (b : Byte) (h : s.acc = some a) :
    exec (.crcByte b) s = .next { s with acc := some (byteStep a b), responses := s.responses ++ [.done] } :=
  withAcc_some h _

theorem exec_crcFinal (h : s.acc = some a) :
    exec .crcFinal s = .next { s with responses := s.responses ++ [.checksum (a ^^^ Config.xorOut)] } := by
  rw [← finalOf_eq_xor]
  exact withAcc_some h _

/-- The old `ACC` plays no part, and need not hold a value (R125). -/
theorem exec_crcCompute (data : List Byte) (s : State) :
    exec (.crcCompute data) s =
      .next { s with acc := some (absorb Config.init data),
                     responses := s.responses ++ [.checksum (absorb Config.init data ^^^ Config.xorOut)] } := by
  rw [← finalOf_eq_xor]
  rfl

/-! ### Runs of operations -/

theorem runOps_cons_of_next {i : Instr} {s t : State} (h : exec i s = .next t) (is : List Instr) :
    runOps (i :: is) s = runOps is t := by
  rw [runOps, h, andThen_next]

theorem runOps_pair {i j : Instr} {s t : State} {o : Result} (hi : exec i s = .next t) (hj : exec j t = o) :
    runOps [i, j] s = o := by
  rw [runOps_cons_of_next hi, ← hj]
  exact andThen_id _

/-- Two high-byte XORs with one byte, issued as operations, give `ACC` back (R121). -/
theorem runOps_crcXorb_twice (b : Byte) (h : s.acc = some a) :
    runOps [.crcXorb b, .crcXorb b] s =
      .next { s with acc := some a, responses := s.responses ++ [.done] ++ [.done] } :=
  runOps_pair (exec_crcXorb b h) (by rw [exec_crcXorb b rfl, xorByte_xorByte])

/-- `CRC.BYTE b` issued as its expansion (R123, 30_encoding.md R109): the same `ACC`. -/
theorem runOps_crcXorb_rounds (b : Byte) (h : s.acc = some a) :
    ∃ t, runOps (.crcXorb b :: List.replicate 8 .crcRound) s = .next t ∧ t.acc = some (byteStep a b) :=
  ⟨_, by rw [runOps_cons_of_next (exec_crcXorb b h), runOps_rounds 8 (a := xorByte a b) rfl], rfl⟩

/-! ### The obligations -/

/-- Settles O4: eight rounds are the round iterated eight times, issued as operations or not. -/
theorem crcByteAbsorbsOneByte : Obligations.CrcByteAbsorbsOneByte := by
  refine fun b s => ⟨rfl, decode_encode (.crcByte b), exec_refused_of_needsAcc rfl, fun a ha => ?_⟩
  refine ⟨byteStep a b, byteStep_eq_iterate a b, exec_crcByte b ha, runOps_crcXorb_rounds b ha, ?_⟩
  intro p hp hpa hpb
  rw [hpa, hpb]
  exact (List.map_inj_left (f := fun p : U32 × Byte × U32 => byteStep p.1 p.2.1) (g := fun p => p.2.2)).1
    (by decide +kernel) p hp

/-- Settles O6: the operation never reads `ACC`, so one equation covers every state; the fold of the byte step is
written out. -/
theorem crcComputeIsTheChecksum : Obligations.CrcComputeIsTheChecksum := by
  refine fun data s => ⟨rfl, decode_encode (.crcCompute data), absorb Config.init data,
    absorb_eq_foldl_iterate _ data, exec_crcCompute data s, fun h => h ▸ rfl, ?_⟩
  intro p hp hdata
  show absorb Config.init data ^^^ Config.xorOut = p.2
  rw [← finalOf_eq_xor, hdata]
  exact (List.map_inj_left (f := fun p : List Byte × U32 => computeChecksum p.1) (g := Prod.snd)).1
    (by decide +kernel) p hp

/-- Settles O1: the operation reads nothing, so both executions are by definition. -/
theorem crcInitLoadsTheInitialValue : Obligations.CrcInitLoadsTheInitialValue :=
  ⟨rfl, decode_encode .crcInit, fun _ => ⟨rfl, _, _, rfl, rfl, rfl⟩⟩

/-- Settles O2, by what the high-byte XOR does to each part of `ACC`. -/
theorem crcXorbXorsTheHighByte : Obligations.CrcXorbXorsTheHighByte := by
  refine fun b s => ⟨rfl, decode_encode (.crcXorb b), exec_refused_of_needsAcc rfl, fun a ha => ?_⟩
  refine ⟨xorByte a b, rfl, exec_crcXorb b ha, xorByte_highByte a b, xorByte_lowBits a b, ?_,
    ⟨_, runOps_crcXorb_twice b ha, rfl⟩, ?_⟩
  · rintro rfl
    exact xorByte_zero a
  · intro ha' hb
    rw [ha', hb]
    decide

/-- Settles O3: the round's test is on `ACC` before the shift. -/
theorem crcRoundShiftsAndFeedsBack : Obligations.CrcRoundShiftsAndFeedsBack := by
  refine ⟨rfl, decode_encode .crcRound, fun s => ⟨exec_refused_of_needsAcc rfl, fun a ha => exec_crcRound ha, ?_⟩⟩
  intro p hp ha
  have listed : round p.1 = p.2 :=
    (List.map_inj_left (f := fun p : U32 × U32 => round p.1) (g := Prod.snd)).1 (by decide) p hp
  rw [exec_crcRound ha, listed]

/-- Settles O5: the operation leaves `ACC` as it is, so what follows reads the value it read. -/
theorem crcFinalDeliversTheComplement : Obligations.CrcFinalDeliversTheComplement := by
  refine ⟨rfl, decode_encode .crcFinal, fun s => ⟨exec_refused_of_needsAcc rfl, fun a ha => ?_⟩⟩
  have hfinal := exec_crcFinal ha
  refine ⟨hfinal, runOps_pair hfinal ?_,
    fun b => ⟨_, _, runOps_pair hfinal (exec_crcByte b ha), exec_crcByte b ha, rfl⟩, ?_⟩
  · refine Eq.trans (exec_crcFinal ha) ?_
    rw [List.append_assoc]
    rfl
  · intro p hp hpa
    rw [hpa]
    exact (List.map_inj_left (f := fun p : U32 × U32 => p.1 ^^^ 0xFFFFFFFF#32) (g := Prod.snd)).1
      (by decide) p hp

end Sys2Proof.Machine
end

