-- ==== Sys2Proof/Proofs/HeaderBuilder.lean ====
section
/-! The header builder (41_header_builder.md): which error a build raises and when it raises none, the reserved region it
writes, and the bytes each store primitive leaves. -/

namespace Sys2Proof.Machine

/-! ### The checks, in their order (R153 to R157) -/

theorem checkField_some (r : Resolved) (f : Field) (e : ValidationError) :
    checkField r f = some e ↔
      e = .outOfRangeField f 0 (fieldHi f) ∧ (r.field f < 0 ∨ fieldHi f < r.field f) := by
  have hnone := checkField_none r f
  rcases checkField_cases r f with h | h
  · obtain ⟨hlo, hhi⟩ := hnone.1 h
    simp [h, not_lt.2 hlo, not_lt.2 hhi]
  · have hout : r.field f < 0 ∨ fieldHi f < r.field f := by
      by_contra hin
      rw [hnone.2 (by omega)] at h
      cases h
    simp [h, hout, eq_comm]

/-- From the start of the sequence, the element an error names is the least one out of range (R157). -/
theorem checkElements_zero_some_iff (res : List Int) (i : Nat) :
    checkElements 0 res = some (.outOfRangeReservedElement i 0 255) ↔
      (∃ x, res[i]? = some x ∧ (x < 0 ∨ 255 < x)) ∧ ∀ j x, j < i → res[j]? = some x → 0 ≤ x ∧ x ≤ 255 := by
  rw [checkElements_some]
  constructor
  · rintro ⟨n, x, he, hx, hout, hleast⟩
    obtain rfl : i = n := by simpa using he
    exact ⟨⟨x, hx, hout⟩, hleast⟩
  · rintro ⟨⟨x, hx, hout⟩, hleast⟩
    exact ⟨i, x, by simp, hx, hout, hleast⟩

/-- The element check names no scalar field. -/
theorem checkElements_ne_outOfRangeField (i : Nat) (res : List Int) (f : Field) (lo hi : Nat) :
    checkElements i res ≠ some (.outOfRangeField f lo hi) := by
  simp [checkElements_some]

/-- The first failing check's error is the one raised: each check counts only when those before it pass (R153, R194). -/
theorem firstViolation_eq_or (r : Resolved) :
    firstViolation r = (checkField r .deviceType).or
      ((checkField r .dataType).or ((checkField r .protocolType).or (checkElements 0 r.res))) := by
  rw [firstViolation]
  cases checkField r .deviceType with
  | some e => rfl
  | none =>
    cases checkField r .dataType with
    | some e => rfl
    | none => cases checkField r .protocolType <;> rfl

/-! Which check an error comes from: an error names its check, so the other alternatives fall away. -/

theorem firstViolation_deviceType_iff (r : Resolved) :
    firstViolation r = some (.outOfRangeField .deviceType 0 65535) ↔ r.dev < 0 ∨ 65535 < r.dev := by
  simp [firstViolation_eq_or, Option.or_eq_some_iff, checkField_some, checkElements_ne_outOfRangeField,
    Resolved.field, fieldHi]

theorem firstViolation_dataType_iff (r : Resolved) :
    firstViolation r = some (.outOfRangeField .dataType 0 255) ↔
      (0 ≤ r.dev ∧ r.dev ≤ 65535) ∧ (r.dat < 0 ∨ 255 < r.dat) := by
  simp [firstViolation_eq_or, Option.or_eq_some_iff, checkField_some, checkField_none,
    checkElements_ne_outOfRangeField, Resolved.field, fieldHi]

theorem firstViolation_protocolType_iff (r : Resolved) :
    firstViolation r = some (.outOfRangeField .protocolType 0 65535) ↔
      (0 ≤ r.dev ∧ r.dev ≤ 65535) ∧ (0 ≤ r.dat ∧ r.dat ≤ 255) ∧ (r.pro < 0 ∨ 65535 < r.pro) := by
  simp [firstViolation_eq_or, Option.or_eq_some_iff, checkField_some, checkField_none,
    checkElements_ne_outOfRangeField, Resolved.field, fieldHi]

theorem firstViolation_reservedElement_iff (r : Resolved) (i : Nat) :
    firstViolation r = some (.outOfRangeReservedElement i 0 255) ↔
      (0 ≤ r.dev ∧ r.dev ≤ 65535) ∧ (0 ≤ r.dat ∧ r.dat ≤ 255) ∧ (0 ≤ r.pro ∧ r.pro ≤ 65535) ∧
        (∃ x, r.res[i]? = some x ∧ (x < 0 ∨ 255 < x)) ∧
        ∀ j x, j < i → r.res[j]? = some x → 0 ≤ x ∧ x ≤ 255 := by
  rw [← checkElements_zero_some_iff]
  simp [firstViolation_eq_or, Option.or_eq_some_iff, checkField_some, checkField_none, Resolved.field, fieldHi]

/-- Raising e is a build's whole effect exactly when e is the first violation (R193). -/
theorem exec_hdrBuild_raises_iff (len : U64) (crc : U32) (md : FirmwareMetadata) (s : State) (e : ValidationError) :
    exec (.hdrBuild len crc md) s = .next { s with responses := s.responses ++ [.err e] } ↔
      firstViolation (resolve md) = some e := by
  rw [exec, execHdrBuild_eq]
  cases firstViolation (resolve md) <;> simp [raise, respond]

/-! ### The reserved region (R158) -/

theorem drop_layout (len : U64) (crc : U32) (r : Resolved) (res47 : List Byte) :
    (layout len crc r res47).drop 17 = res47 := by
  rw [layout_eq_bytes]
  rfl

theorem getElem?_norm47 (res : List Int) {j : Nat} (hj : j < 47) :
    (norm47 res)[j]? = some ((res[j]?.map toU8).getD 0x00#8) := by
  rw [norm47, Config.resSize, List.getElem?_take_of_lt hj]
  by_cases hres : j < res.length
  · simp [List.getElem?_append_left, hres]
  · have hpad : j - res.length < 47 := by omega
    have hle : (res.map toU8).length ≤ j := by simpa using hres
    rw [List.getElem?_append_right hle, List.length_map, List.getElem?_replicate_of_lt hpad,
      List.getElem?_eq_none (not_lt.1 hres)]
    rfl

/-! ### The store primitives (R160 to R164) -/

theorem getElem?_be {w : Nat} {n j : Nat} (v : BitVec w) (hj : j < n) :
    (be n v)[j]? = some (v.extractLsb' (8 * (n - 1 - j)) 8) := by
  simp [be, hj]

/-- Reading after the n bytes of a value are stored: its byte for an offset inside the range, the old byte outside. -/
theorem memRead_storeBytes_be {w : Nat} (m : Memory) (o a n : Nat) (v : BitVec w) :
    memRead (storeBytes m o (be n v)) a =
      if o ≤ a ∧ a < o + n then some (v.extractLsb' (8 * (n - 1) - 8 * (a - o)) 8) else memRead m a := by
  rw [memRead_storeBytes, be_length]
  refine if_ctx_congr Iff.rfl (fun ⟨_, _⟩ => ?_) fun _ => rfl
  rw [getElem?_be v (by omega), Nat.mul_sub]

theorem be_one (v : Byte) : be 1 v = [v] :=
  congrArg (fun b => [b]) BitVec.extractLsb'_eq_self

/-! ### The obligations -/

/-- Settles O8: a build raises e exactly when e is the first violation, and which error that is depends on the first
check that fails. -/
theorem hdrBuildReportsTheFirstViolation : Obligations.HdrBuildReportsTheFirstViolation := by
  rintro s len crc md dev dat pro res rfl rfl rfl rfl
  simp only [exec_hdrBuild_raises_iff]
  exact ⟨firstViolation_deviceType_iff _, firstViolation_dataType_iff _, firstViolation_protocolType_iff _,
    firstViolation_reservedElement_iff _⟩

/-- Settles O9: in range is the same as no violation; a violation is found from the metadata alone. -/
theorem hdrBuildSucceedsExactlyInRange : Obligations.HdrBuildSucceedsExactlyInRange := by
  intro s len crc md inRanges
  have hpassed : firstViolation (resolve md) = none ↔ inRanges := firstViolation_none (resolve md)
  constructor
  · intro hin
    exact ⟨_, layout_length len crc (resolve md) (norm47_length _), exec_hdrBuild_of_passed (hpassed.2 hin) s⟩
  · intro hout
    obtain ⟨e, he⟩ := Option.ne_none_iff_exists'.1 (mt hpassed.1 hout)
    exact ⟨e, fun len' crc' s' => (exec_hdrBuild_raises_iff len' crc' md s' e).2 he⟩

/-- Settles O10: from offset 17 on a built header is `norm47` of the resolved elements, each of which has passed its
check and so fits its byte. -/
theorem reservedIsPaddedOrCutTo47 : Obligations.ReservedIsPaddedOrCutTo47 := by
  intro s t len crc md h hexec hok
  obtain ⟨hv, rfl⟩ := layout_of_exec_hdrBuild_ok hexec hok
  obtain ⟨-, -, -, helements⟩ := (firstViolation_none _).1 hv
  have hdrop := drop_layout len crc (resolve md) (norm47 (resolve md).res)
  refine ⟨hdrop ▸ norm47_length _, hdrop.symm, fun j hj => ⟨?_, fun x hx => ?_⟩⟩
  · rw [← List.getElem?_drop, hdrop, getElem?_norm47 _ hj]
    show some (((md.reserved.getD [])[j]?.map toU8).getD 0x00#8) = _
    cases (md.reserved.getD [])[j]? <;> rfl
  · obtain ⟨hlo, hhi⟩ := helements x (List.mem_of_getElem? hx)
    exact toNat_toU8 hlo hhi

/-- Settles O13: the integer stores are one lemma at four widths; the raw one stores its bytes as they are. -/
theorem storePrimitivesAreBigEndian : Obligations.StorePrimitivesAreBigEndian := by
  refine ⟨fun m o a v => memRead_storeBytes_be m o a 8 v, fun m o a v => memRead_storeBytes_be m o a 4 v,
    fun m o a v => memRead_storeBytes_be m o a 2 v, fun m o a v => ?_, fun m o a bs hbs => ?_,
    fun len crc r bs m => ⟨rfl, rfl, rfl, rfl, rfl, rfl⟩⟩
  · rw [wrU8, be_one]
    exact memRead_memWrite m o a v
  · rw [wrRaw47, memRead_storeBytes, hbs]

/-- Settles O11, by cases on whether each field is present; a default lies in its field's range. -/
theorem resolveAppliesTheDefaults : Obligations.ResolveAppliesTheDefaults := by
  rintro ⟨dev, dat, pro, res⟩
  refine ⟨by cases dev <;> rfl, by cases dat <;> rfl, by cases pro <;> rfl, by cases res <;> rfl, ?_⟩
  refine ⟨?_, ?_, ?_, ?_, ?_⟩ <;> rintro rfl <;> rfl

end Sys2Proof.Machine
end

