-- ==== Sys2Proof/Proofs/Exceptions.lean ====
section
/-! Exceptions (60_exceptions.md): what a failed build leaves behind, and that the operation issued next cannot tell it
was issued. -/

namespace Sys2Proof.Machine

/-- Which refusal an operation meets is decided by `ACC` alone (10_state.md R23, R29). -/
theorem exec_refused_congr {i : Instr} {s s' : State} {x : Refusal} (hacc : s'.acc = s.acc)
    (h : exec i s = .refused x) : exec i s' = .refused x := by
  rcases exec_outcome i s with ⟨hneeds, hs, hrefused⟩ | ⟨-, t, hnext⟩
  · obtain rfl : Refusal.accUnwritten = x := by rw [hrefused] at h; cases h; rfl
    exact exec_refused_of_needsAcc hneeds (hacc.trans hs)
  · rw [hnext] at h
    cases h

/-- A build's whole effect is its response (R193 for `Err`, 41_header_builder.md R159 for `Ok`). -/
theorem exec_hdrBuild_frame {len : U64} {crc : U32} {md : FirmwareMetadata} {s t : State} {r : Response}
    (h : exec (.hdrBuild len crc md) s = .next t) (hr : t.responses = s.responses ++ [r]) : t = respond r s := by
  obtain ⟨r', -, ht, -⟩ := exec_next h
  rw [exec_hdrBuild_acc h] at ht
  subst ht
  obtain rfl : r' = r := by simpa using hr
  rfl

/-- Settles O12: a failed build only appends its `Err`, so `ACC`, all that the operation issued next reads of the state,
is what it was. -/
theorem failedBuildLeavesNothingBehind : Obligations.FailedBuildLeavesNothingBehind := by
  intro s t len crc md e hbuild herr
  obtain rfl : t = respond (.err e) s := exec_hdrBuild_frame hbuild herr
  refine ⟨rfl, fun i => ⟨fun u hu => ?_, fun x => exec_refused_congr rfl⟩⟩
  obtain ⟨r, -, hframe, hcongr⟩ := exec_next hu
  refine ⟨r, congrArg State.responses hframe, ?_⟩
  rw [hframe]
  exact hcongr (respond (.err e) s) rfl

end Sys2Proof.Machine
end

