-- ==== Sys2Proof/Proofs/Reset.lean ====
section
/-! Reset (70_reset_and_hazards.md section 1): no operation and no micro-step takes the value of `ACC` away, so an
advance that does took a reset. -/

namespace Sys2Proof.Machine

/-- Whenever `f` goes on from a state whose `ACC` holds a value, `ACC` holds one afterwards too. -/
def KeepsAccHeld (f : State → Result) : Prop :=
  ∀ ⦃s t : State⦄, f s = .next t → s.acc ≠ none → t.acc ≠ none

/-! ### The parts of an operation -/

theorem deliverHeader_acc {m : Memory} {s t : State} (h : deliverHeader m s = .next t) : t.acc = s.acc := by
  unfold deliverHeader at h
  split at h
  · cases h; rfl
  · cases h

theorem afterCheckStep_acc {v : Option ValidationError} {q : Seq} {s t : State}
    (h : afterCheckStep v q s = .next t) : t.acc = s.acc := by
  cases v <;> (cases h; rfl)

/-! ### Operations, micro-steps and runs of them -/

theorem exec_keepsAccHeld (i : Instr) : KeepsAccHeld (exec i) := by
  intro s t h hs
  cases i with
  | crcInit | crcCompute data => cases h; exact Option.some_ne_none _
  | crcXorb b | crcRound | crcByte b =>
    obtain ⟨a, -, h⟩ := withAcc_next h
    cases h
    exact Option.some_ne_none _
  | crcFinal =>
    obtain ⟨a, -, h⟩ := withAcc_next h
    cases h
    exact hs
  | hdrBuild len crc md => rwa [exec_hdrBuild_acc h]

/-- Starting an operation either only sets its first phase or performs it. -/
theorem begin_keepsAccHeld (i : Instr) : KeepsAccHeld (begin i) := by
  intro s t h hs
  cases i with
  | crcByte b =>
    obtain ⟨a, -, h⟩ := withAcc_next h
    cases h
    exact hs
  | crcCompute data | hdrBuild len crc md => cases h; exact hs
  | crcInit => exact exec_keepsAccHeld .crcInit h hs
  | crcXorb b => exact exec_keepsAccHeld (.crcXorb b) h hs
  | crcRound => exact exec_keepsAccHeld .crcRound h hs
  | crcFinal => exact exec_keepsAccHeld .crcFinal h hs

/-- By cases on the phase: those of CE write a value or leave `ACC`, those of HB leave it (10_state.md R21). -/
theorem microStep_keepsAccHeld : KeepsAccHeld microStep := by
  intro s t h hs
  cases hq : s.seq <;> simp only [microStep, hq] at h
  case idle | buildResolve | buildNorm => cases h; exact hs
  case computeInit => cases h; exact Option.some_ne_none _
  case byteXor =>
    obtain ⟨a, -, h⟩ := withAcc_next h
    cases h
    exact Option.some_ne_none _
  case byteShift | computeShift =>
    obtain ⟨a, -, h⟩ := withAcc_next h
    split at h <;> (cases h; exact Option.some_ne_none _)
  case computeXor =>
    split at h
    · obtain ⟨a, -, h⟩ := withAcc_next h
      cases h
      exact Option.some_ne_none _
    · cases h; exact hs
  case computeFinal =>
    obtain ⟨a, -, h⟩ := withAcc_next h
    cases h
    exact hs
  case buildCheck => rwa [afterCheckStep_acc h]
  case buildCheckElement =>
    split at h
    · rwa [afterCheckStep_acc h]
    · cases h; exact hs
  case buildSer =>
    split at h
    · cases h; exact hs
    · rwa [deliverHeader_acc h]

theorem microRun_keepsAccHeld (n : Nat) : KeepsAccHeld (microRun n) := by
  induction n with
  | zero => intro s t h hs; cases h; exact hs
  | succ n ih =>
    intro s t h hs
    obtain ⟨u, hu, h⟩ := andThen_eq_next h
    exact ih h (microStep_keepsAccHeld hu hs)

theorem finish_keepsAccHeld : KeepsAccHeld finish :=
  fun s _ h => microRun_keepsAccHeld s.seq.stepsLeft h

theorem takeRequest_keepsAccHeld {start : Instr → State → Result} (hstart : ∀ i, KeepsAccHeld (start i))
    (r : Request) : KeepsAccHeld (takeRequest start r) := by
  intro s t h hs
  unfold takeRequest at h
  split at h
  · exact hstart _ h hs
  · cases h

/-! ### Reset, at either granularity -/

theorem advance_of_reset (start : Instr → State → Result) (carryOn : State → Result) {s : State}
    {rest : List HostInput} (h : s.inputs = .reset :: rest) :
    advance start carryOn s = .next (takeReset { s with inputs := rest }) := by
  simp only [advance, h]

/-- If neither starting an operation nor carrying one on takes the value of `ACC` away, only reset does. -/
theorem reset_of_advance_acc_none {start : Instr → State → Result} {carryOn : State → Result}
    (hstart : ∀ i, KeepsAccHeld (start i)) (hcarry : KeepsAccHeld carryOn) {s t : State}
    (h : advance start carryOn s = .next t) (hs : s.acc ≠ none) (ht : t.acc = none) :
    ∃ rest, s.inputs = .reset :: rest := by
  rcases advance_cases start carryOn s with ⟨rest, hreset, -⟩ | ⟨r, rest, -, -, htake⟩ | ⟨-, -, hcarried⟩
  · exact ⟨rest, hreset⟩
  · exact absurd ht (takeRequest_keepsAccHeld hstart r (htake.symm.trans h) hs)
  · exact absurd ht (hcarry (hcarried.symm.trans h) hs)

/-! ### The obligation -/

/-- Settles O18: both granularities are an `advance`, which takes a reset at once; the rest is that operations and
micro-steps keep a held `ACC` held. -/
theorem resetEventClearsAccAndAbandons : Obligations.ResetEventClearsAccAndAbandons := by
  refine ⟨fun s rest h => ?_, fun s t h hs ht => ?_⟩
  · exact ⟨⟨_, advance_of_reset exec finish h, rfl, rfl, rfl⟩,
      ⟨_, advance_of_reset begin microStep h, rfl, rfl, rfl⟩⟩
  · rcases h with hstep | htick
    · exact reset_of_advance_acc_none exec_keepsAccHeld finish_keepsAccHeld hstep hs ht
    · exact reset_of_advance_acc_none begin_keepsAccHeld microStep_keepsAccHeld htick hs ht

end Sys2Proof.Machine
end

