-- ==== Sys2Proof/Proofs/Other.lean ====
section
/-! The statements about the whole model: its decoder, its invariant, its micro-steps against its operations, the laws
of the checksum, and the header as a vector and in an image. -/

namespace Sys2Proof

/-! ### Decoding at any setting of the open parameters (30_encoding.md R100; log entry 8) -/

theorem decodeOp_encode (i : Instr) : decodeOp (encode i) = .ok i := by
  rw [← decode_eq_decodeOp, decode_encode]

theorem decodeAt_encode (p : Config.Params) (i : Instr) :
    decodeAt p (encode i) =
      if i.wellFormed p then .ok i else .error (.outsideParameters (encode i).cmd) := by
  rw [decodeAt, decodeOp_encode]

/-- Settles O27: the encoded operation is read back, and only then are its operands held against the parameters. -/
theorem decodeOfEncodeIsTheOperation : Obligations.DecodeOfEncodeIsTheOperation := by
  refine ⟨fun p i => ⟨?_, fun hout => ?_⟩, fun i => ⟨wellFormed_default i, decode_encode i⟩⟩
  · rw [decodeAt_encode]
    cases i.wellFormed p <;> simp
  · rw [decodeAt_encode, hout]
    rfl

/-! ### What a request decodes to (30_encoding.md R100) -/

theorem takePayload_ok {i : Instr} {r : Request} (h : takePayload r = .ok i) :
    ∃ data, r.record = .payload data ∧ i = .crcCompute data := by
  unfold takePayload at h
  split at h
  · cases h; exact ⟨_, ‹_›, rfl⟩
  · cases h

theorem takeBuild_ok {i : Instr} {r : Request} (h : takeBuild r = .ok i) :
    ∃ len crc src md, r.record = .build len crc src ∧ src.toMetadata = .ok md ∧ i = .hdrBuild len crc md := by
  unfold takeBuild at h
  split at h
  next len crc src hr =>
    split at h
    next md hmd => cases h; exact ⟨len, crc, src, md, hr, hmd, rfl⟩
    next => cases h
  next => cases h

/-- The record of a decoded request: the operation's own, or a spelling of its metadata. -/
def RecordOf (i : Instr) (r : Request) : Prop :=
  (encode i).record = r.record ∨
    ∃ len crc src md, r.record = .build len crc src ∧ src.toMetadata = .ok md ∧ i = .hdrBuild len crc md

theorem takeNoRecord_ok {i j : Instr} {r : Request} (h : takeNoRecord i r = .ok j)
    (hrecord : (encode i).record = .absent) (hcmd : (encode i).cmd = r.cmd) :
    (encode j).cmd = r.cmd ∧ RecordOf j r := by
  unfold takeNoRecord at h
  split at h
  next hr => cases h; exact ⟨hcmd, .inl (hrecord.trans hr.symm)⟩
  next => cases h

theorem decodeOp_ok {r : Request} {i : Instr} (h : decodeOp r = .ok i) : (encode i).cmd = r.cmd ∧ RecordOf i r := by
  have hword {w : U16} {o : Byte} (himm : ¬ immOf r.cmd ≠ 0x00#8) (hop : opOf r.cmd = o) (hwo : opOf w = o)
      (hwi : immOf w = 0x00#8) : w = r.cmd := word_ext (hwo.trans hop.symm) (hwi.trans (not_not.1 himm).symm)
  unfold decodeOp at h
  split_ifs at h with hxorb hbyte himm hinit hround hfinal hcompute hbuild
  · exact takeNoRecord_ok h rfl (word_ext ((opOf_xorbWord _).trans hxorb.symm) (immOf_xorbWord _))
  · exact takeNoRecord_ok h rfl (word_ext ((opOf_byteWord _).trans hbyte.symm) (immOf_byteWord _))
  · exact takeNoRecord_ok h rfl (hword himm hinit rfl rfl)
  · exact takeNoRecord_ok h rfl (hword himm hround rfl rfl)
  · exact takeNoRecord_ok h rfl (hword himm hfinal rfl rfl)
  · obtain ⟨data, hr, rfl⟩ := takePayload_ok h
    exact ⟨hword (w := 0x0600#16) himm hcompute rfl rfl, .inl hr.symm⟩
  · obtain ⟨len, crc, src, md, hr, hmd, rfl⟩ := takeBuild_ok h
    exact ⟨hword (w := 0x1000#16) himm hbuild rfl rfl, .inr ⟨len, crc, src, md, hr, hmd, rfl⟩⟩

/-- Settles O28, by cases along the decoder's own tests. -/
theorem encodeOfDecodeIsTheRequest : Obligations.EncodeOfDecodeIsTheRequest := by
  intro r i h
  rw [decode_eq_decodeOp] at h
  obtain ⟨hcmd, hrecord⟩ := decodeOp_ok h
  exact ⟨hcmd, wellFormed_default i, hrecord⟩

theorem oneRow (i : Instr) : Laws.OneRow.Statement i := by
  cases i with
  | crcInit => exact Laws.OneRow.crcInit
  | crcXorb b => exact Laws.OneRow.crcXorb b
  | crcRound => exact Laws.OneRow.crcRound
  | crcByte b => exact Laws.OneRow.crcByte b
  | crcFinal => exact Laws.OneRow.crcFinal
  | crcCompute data => exact Laws.OneRow.crcCompute data
  | hdrBuild len crc md => exact Laws.OneRow.hdrBuild len crc md

/-- Settles O29: the word is the operation's own, and the rows that cover it are one. -/
theorem decodedWordsHaveOneRow : Obligations.DecodedWordsHaveOneRow := by
  intro r i h
  rw [decode_eq_decodeOp] at h
  have hrow : (opcodeTable.filter fun row => row.covers r.cmd).map OpcodeRow.mnemonic = [i.mnemonic] := by
    rw [← (decodeOp_ok h).1]
    exact oneRow i
  obtain ⟨row, hfilter, hmnemonic⟩ := List.map_eq_singleton_iff.1 hrow
  have hmem (row' : OpcodeRow) : row' ∈ opcodeTable ∧ row'.covers r.cmd = true ↔ row' = row := by
    rw [← List.mem_singleton (a := row'), ← hfilter, List.mem_filter]
  obtain ⟨hin, hcovers⟩ := (hmem row).2 rfl
  exact ⟨row, hin, hcovers, hmnemonic, fun row' hin' hcovers' => (hmem row').1 ⟨hin', hcovers'⟩⟩

theorem decode_of_encode {r : Request} {i : Instr} (h : encode i = r) : decode r = .ok i :=
  h ▸ decode_encode i

/-- Settles O31: nine of the words are encodings, and no row covers the other seven. -/
theorem exampleWordsDecode : Obligations.ExampleWordsDecode := by
  have hreserved : ∀ w ∈ [0x0000#16, 0x0101#16, 0x0301#16, 0x0601#16, 0x0700#16, 0x1100#16, 0xFFFF#16],
      (w.toNat / 256 = 0 ∨ (7 ≤ w.toNat / 256 ∧ w.toNat / 256 ≤ 0x0F) ∨ 0x11 ≤ w.toNat / 256) ∨
        (w.toNat / 256 ∈ [0x01, 0x03, 0x05, 0x06, 0x10] ∧ w.toNat % 256 ≠ 0) := by simp
  refine ⟨?_, ?_, ?_, ?_, ?_, ?_, ?_, ?_, ?_, fun w hw =>
    decode_of_no_row_covers (r := ⟨w, .absent⟩) ((no_row_covers_iff_reserved w).2 (hreserved w hw))⟩ <;>
    exact decode_of_encode rfl

/-! ### The four metadata keys (30_encoding.md R96) -/

theorem scalar_ok_iff (k : String) (src : MetadataSource) (x : Option Int) :
    src.scalar k = .ok x ↔ src.valuesAt k = x.toList.map MetaValue.integer := by
  unfold MetadataSource.scalar
  split
  next h => cases x <;> simp [h]
  next v h => cases x <;> simp [h]
  next hnil hone =>
    cases x with
    | none => simpa using hnil
    | some v => simpa using hone v

theorem sequence_ok_iff (k : String) (src : MetadataSource) (x : Option (List Int)) :
    src.sequence k = .ok x ↔ src.valuesAt k = x.toList.map MetaValue.sequence := by
  unfold MetadataSource.sequence
  split
  next h => cases x <;> simp [h]
  next v h => cases x <;> simp [h]
  next hnil hone =>
    cases x with
    | none => simpa using hnil
    | some v => simpa using hone v

section Key

variable {α : Type} {c : α → MetaValue} {k : String} {src : MetadataSource}

/-- What stands under a key that is read: its value, if it stands there. -/
theorem eq_some_iff_of_valuesAt (hc : c.Injective) {x : Option α} (h : src.valuesAt k = x.toList.map c) (v : α) :
    x = some v ↔ (k, c v) ∈ src := by
  rw [← mem_valuesAt, h, List.mem_map_of_injective hc, Option.mem_toList]

theorem eq_none_iff_of_valuesAt {x : Option α} (h : src.valuesAt k = x.toList.map c) :
    x = none ↔ k ∉ src.map Prod.fst := by
  rw [← List.count_eq_zero, ← valuesAt_length, h]
  cases x <;> simp

/-- A key can be read exactly when it stands at most once, with a value of its kind. -/
theorem exists_valuesAt_iff :
    (∃ x : Option α, src.valuesAt k = x.toList.map c) ↔
      (src.map Prod.fst).count k ≤ 1 ∧ ∀ e ∈ src, e.1 = k → ∃ v, e.2 = c v := by
  rw [← valuesAt_length]
  constructor
  · rintro ⟨x, h⟩
    refine ⟨by rw [h]; cases x <;> simp, fun e he hek => ?_⟩
    have hv : e.2 ∈ src.valuesAt k := (mem_valuesAt k src e.2).2 (hek ▸ he)
    rw [h] at hv
    obtain ⟨v, -, hv⟩ := List.mem_map.1 hv
    exact ⟨v, hv.symm⟩
  · rintro ⟨hone, hkind⟩
    match hvals : src.valuesAt k with
    | [] => exact ⟨none, rfl⟩
    | [m] =>
      obtain ⟨v, hv⟩ := hkind (k, m) ((mem_valuesAt k src m).1 (by rw [hvals]; exact List.mem_singleton_self m)) rfl
      exact ⟨some v, congrArg (fun m => [m]) hv⟩
    | _ :: _ :: _ => rw [hvals] at hone; simp at hone

end Key

theorem scalar_error {k : String} {src : MetadataSource} {e : DecodeError} (h : src.scalar k = .error e) :
    e = .malformedMetadata k := by
  unfold MetadataSource.scalar at h
  split at h <;> cases h
  rfl

theorem sequence_error {k : String} {src : MetadataSource} {e : DecodeError} (h : src.sequence k = .error e) :
    e = .malformedMetadata k := by
  unfold MetadataSource.sequence at h
  split at h <;> cases h
  rfl

/-- A source that is not read is refused for the first key that cannot be (log entry 17). -/
theorem toMetadata_error {src : MetadataSource} {e : DecodeError} (h : src.toMetadata = .error e) :
    ∃ k ∈ knownKeys, e = .malformedMetadata k := by
  unfold MetadataSource.toMetadata at h
  split at h
  next he => cases h; exact ⟨keyDeviceType, by decide, scalar_error he⟩
  split at h
  next he => cases h; exact ⟨keyDataType, by decide, scalar_error he⟩
  split at h
  next he => cases h; exact ⟨keyProtocolType, by decide, scalar_error he⟩
  split at h
  next he => cases h; exact ⟨keyReserved, by decide, sequence_error he⟩
  cases h

theorem exists_toMetadata_iff (src : MetadataSource) :
    (∃ md, src.toMetadata = .ok md) ↔
      (∃ x, src.scalar keyDeviceType = .ok x) ∧ (∃ x, src.scalar keyDataType = .ok x) ∧
        (∃ x, src.scalar keyProtocolType = .ok x) ∧ ∃ x, src.sequence keyReserved = .ok x := by
  constructor
  · rintro ⟨md, h⟩
    obtain ⟨hdev, hdat, hpro, hres⟩ := (toMetadata_ok_iff src md).1 h
    exact ⟨⟨_, hdev⟩, ⟨_, hdat⟩, ⟨_, hpro⟩, _, hres⟩
  · rintro ⟨⟨dev, hdev⟩, ⟨dat, hdat⟩, ⟨pro, hpro⟩, res, hres⟩
    exact ⟨⟨dev, dat, pro, res⟩, (toMetadata_ok_iff src _).2 ⟨hdev, hdat, hpro, hres⟩⟩

theorem decode_hdrBuildWord (len : U64) (crc : U32) (src : MetadataSource) :
    decode ⟨0x1000#16, .build len crc src⟩ = takeBuild ⟨0x1000#16, .build len crc src⟩ := by
  rw [decode_eq_decodeOp]
  simp [decodeOp, opOf, immOf]

theorem decode_build_of_error {src : MetadataSource} {e : DecodeError} (h : src.toMetadata = .error e) (len : U64)
    (crc : U32) : decode ⟨0x1000#16, .build len crc src⟩ = .error e := by
  rw [decode_hdrBuildWord]
  simp only [takeBuild, h]

/-- Settles O33, key by key: each is read by its own values. -/
theorem metadataKeysGiveTheFields : Obligations.MetadataKeysGiveTheFields := by
  have hint : Function.Injective MetaValue.integer := fun _ _ => MetaValue.integer.inj
  have hseq : Function.Injective MetaValue.sequence := fun _ _ => MetaValue.sequence.inj
  refine ⟨fun src md h => ?_, fun src => ?_, fun src h => ?_⟩
  · obtain ⟨hdev, hdat, hpro, hres⟩ := (toMetadata_ok_iff src md).1 h
    rw [scalar_ok_iff] at hdev hdat hpro
    rw [sequence_ok_iff] at hres
    exact ⟨eq_some_iff_of_valuesAt hint hdev, eq_some_iff_of_valuesAt hint hdat, eq_some_iff_of_valuesAt hint hpro,
      eq_some_iff_of_valuesAt hseq hres, eq_none_iff_of_valuesAt hdev, eq_none_iff_of_valuesAt hdat,
      eq_none_iff_of_valuesAt hpro, eq_none_iff_of_valuesAt hres⟩
  · simp only [exists_toMetadata_iff, scalar_ok_iff, sequence_ok_iff, exists_valuesAt_iff, List.mem_cons,
      List.not_mem_nil, or_imp, forall_and, forall_eq, false_imp_iff, and_true]
    simp only [keyDeviceType, keyDataType, keyProtocolType, keyReserved]
    tauto
  · cases hmd : src.toMetadata with
    | ok md => exact absurd hmd (h md)
    | error e =>
      obtain ⟨k, hk, rfl⟩ := toMetadata_error hmd
      exact ⟨k, hk, rfl, decode_build_of_error hmd⟩

end Sys2Proof

namespace Sys2Proof.Machine

/-! ### The frame of the operations and runs of them (10_state.md R21, R31) -/

/-- What every operation leaves as it was, and its one response (R21, R31). -/
theorem exec_frame {i : Instr} {s t : State} (h : exec i s = .next t) :
    t.seq = s.seq ∧ t.inputs = s.inputs ∧ ∃ r : Response, r.wf ∧ t.responses = s.responses ++ [r] := by
  obtain ⟨r, hr, ht, -⟩ := exec_next h
  rw [ht]
  exact ⟨rfl, rfl, r, hr, rfl⟩

/-- Settles O22: the frame of an operation, and that CRC.FINAL and HDR.BUILD write no `ACC`. -/
theorem operationsChangeOnlyAccAndRespond : Obligations.OperationsChangeOnlyAccAndRespond := by
  intro i s t h
  obtain ⟨hseq, hinputs, r, -, hresp⟩ := exec_frame h
  refine ⟨hseq, hinputs, ⟨r, hresp⟩, ?_, ?_⟩
  · rintro rfl
    obtain ⟨a, -, h⟩ := withAcc_next h
    cases h
    rfl
  · rintro len crc md rfl
    exact exec_hdrBuild_acc h

/-- Settles O24: what an operation does from one state it does from every state with the same `ACC`. -/
theorem operationsReadOnlyAcc : Obligations.OperationsReadOnlyAcc := by
  intro i s s' hacc
  refine ⟨fun t h => ?_, fun x => exec_refused_congr hacc.symm⟩
  obtain ⟨r, -, ht, hcongr⟩ := exec_next h
  exact ⟨r, ht, hcongr s' hacc.symm⟩

theorem exec_ne_fault (i : Instr) (s : State) (f : Fault) : exec i s ≠ .fault f := by
  rcases exec_outcome i s with ⟨-, -, h⟩ | ⟨-, t, h⟩ <;> rw [h] <;> exact nofun

/-- Settles O25: an operation answers a next state or is refused, what it responds with depends on which it is, and the
six stores are the layout. -/
theorem noOperationFaults : Obligations.NoOperationFaults := by
  intro i s
  refine ⟨exec_ne_fault i s, fun hce t e h herr => ?_, fun data => ⟨_, rfl⟩, fun len crc r bs hbs => ?_⟩
  · obtain ⟨r, hresp, hform⟩ := everyOperationRespondsOnce i s t h
    obtain rfl : r = .err e := by simpa [hresp] using herr
    cases i with
    | hdrBuild len crc md => exact hce len crc md rfl
    | crcFinal | crcCompute data => obtain ⟨v, hv⟩ := hform; cases hv
    | crcInit | crcXorb b | crcRound | crcByte b => cases hform
  · have hlen := layout_length len crc r hbs
    rw [ser64_eq, headerBytes_cells _ hlen, hlen]

/-- Whether `ACC` holds a value after an operation: if it did before, or the operation gives it one. -/
theorem exec_acc_isSome {i : Instr} {s t : State} (h : exec i s = .next t) :
    t.acc.isSome = (s.acc.isSome || initialises i) := by
  cases hs : s.acc with
  | some a =>
    have ht : t.acc ≠ none := exec_keepsAccHeld i h (by simp [hs])
    simpa using Option.isSome_iff_ne_none.2 ht
  | none =>
    cases hi : initialises i with
    | true =>
      rcases (initialises_iff i).1 hi with rfl | ⟨data, rfl⟩ <;> (cases h; rfl)
    | false =>
      by_contra ht
      have hacc : t.acc ≠ none := fun hn => ht (by rw [hn]; rfl)
      rw [initialises_of_acc_written hs h hacc] at hi
      cases hi

/-- Settles O26, by induction over the run: whether `ACC` holds a value is all that is carried along. -/
theorem runsCompleteExactlyWhenInitialised : Obligations.RunsCompleteExactlyWhenInitialised := by
  intro is s
  induction is generalizing s with
  | nil => exact ⟨fun _ => ⟨s, [], rfl, by simp, rfl, rfl, rfl⟩, fun h => by cases h⟩
  | cons i is ih =>
    rw [initialisedRun, runOps]
    rcases exec_outcome i s with ⟨hneeds, hnone, h⟩ | ⟨hheld, t, h⟩
    · rw [h, hneeds, hnone]
      exact ⟨fun hrun => absurd hrun Bool.false_ne_true, fun _ => rfl⟩
    · have hreads : (s.acc.isSome || !needsAcc i) = true := by
        cases hn : needsAcc i with
        | true => simpa using Option.isSome_iff_ne_none.2 (hheld hn)
        | false => simp
      obtain ⟨hseq, hinputs, r, -, hresp⟩ := exec_frame h
      obtain ⟨hcompletes, hrefused⟩ := ih t
      rw [h, hreads, Bool.true_and, ← exec_acc_isSome h, andThen_next]
      refine ⟨fun hrun => ?_, hrefused⟩
      obtain ⟨u, rs, hu, hursp, hlen, huseq, huin⟩ := hcompletes hrun
      exact ⟨u, r :: rs, hu, by simp [hursp, hresp], by simp [hlen], huseq.trans hseq, huin.trans hinputs⟩

/-- Settles O54: an operation's error is one of the four causes, each with its bounds. -/
theorem responseCodesAndBounds : Obligations.ResponseCodesAndBounds := by
  refine ⟨rfl, fun _ => rfl, fun _ => rfl, fun _ => rfl, fun _ _ _ => rfl, fun _ _ _ => rfl, rfl, fun _ => rfl,
    fun _ => rfl, rfl, rfl, rfl, fun s t i e h herr => ?_⟩
  obtain ⟨-, -, r, hwf, hresp⟩ := exec_frame h
  obtain rfl : r = .err e := by simpa [hresp] using herr
  cases e with
  | outOfRangeField f lo hi =>
    obtain ⟨rfl, rfl⟩ := hwf
    cases f with
    | deviceType => exact .inl rfl
    | dataType => exact .inr (.inl rfl)
    | protocolType => exact .inr (.inr (.inl rfl))
  | outOfRangeReservedElement n lo hi =>
    obtain ⟨rfl, rfl⟩ := hwf
    exact .inr (.inr (.inr ⟨n, rfl⟩))

/-! ### Expansions (30_encoding.md R109) -/

theorem runOps_singleton (i : Instr) (s : State) : runOps [i] s = exec i s := andThen_id _

/-- What an expansion ends with: the same `ACC` and the same last response, or the same refusal. -/
def SameEnd (o o' : Result) : Prop :=
  (∀ t, o = .next t → ∃ u, o' = .next u ∧ u.acc = t.acc ∧ u.responses.getLast? = t.responses.getLast?) ∧
    ∀ x, o = .refused x → o' = .refused x

theorem SameEnd.refl (o : Result) : SameEnd o o := ⟨fun t h => ⟨t, h, rfl, rfl⟩, fun _ h => h⟩

theorem SameEnd.of_next {t u : State} (hacc : u.acc = t.acc)
    (hlast : u.responses.getLast? = t.responses.getLast?) : SameEnd (.next t) (.next u) :=
  ⟨fun t' h => by cases h; exact ⟨u, rfl, hacc, hlast⟩, fun _ h => by cases h⟩

theorem expand_crcByte_sameEnd (b : Byte) (s : State) :
    SameEnd (exec (.crcByte b) s) (runOps (expand (.crcByte b)) s) := by
  cases ha : s.acc with
  | none =>
    have hxorb : runOps (expand (.crcByte b)) s = .refused .accUnwritten := by
      rw [expand, runOps, exec_refused_of_needsAcc rfl ha]
      rfl
    rw [exec_refused_of_needsAcc rfl ha, hxorb]
    exact .refl _
  | some a =>
    rw [exec_crcByte b ha, expand, runOps_cons_of_next (exec_crcXorb b ha), runOps_rounds _ (a := xorByte a b) rfl]
    exact .of_next rfl (by simp [Config.rounds, List.replicate])

theorem expand_crcCompute_sameEnd (data : List Byte) (s : State) :
    SameEnd (exec (.crcCompute data) s) (runOps (expand (.crcCompute data)) s) := by
  rw [expand, runOps_cons_of_next (t := respond .done (writeAcc Config.init s)) rfl, runOps_append,
    runOps_bytes data (a := Config.init) rfl, andThen_next, runOps_singleton,
    exec_crcFinal (a := absorb Config.init data) rfl, exec_crcCompute]
  exact .of_next rfl (List.getLast?_concat.trans List.getLast?_concat.symm)

/-- Settles O46: the expansion of CRC.BYTE is a run of rounds, that of CRC.COMPUTE a run over the bytes; the other
operations are their own. -/
theorem expansionsAgree : Obligations.ExpansionsAgree := by
  refine ⟨fun b => rfl, fun data => rfl, fun i s => ?_⟩
  show SameEnd (exec i s) (runOps (expand i) s)
  cases i with
  | crcByte b => exact expand_crcByte_sameEnd b s
  | crcCompute data => exact expand_crcCompute_sameEnd data s
  | crcInit | crcXorb _ | crcRound | crcFinal | hdrBuild _ _ _ =>
    rw [expand, runOps_singleton]
    exact .refl _

/-! ### The invariant, kept at both granularities (10_state.md R27, 20_memory.md R56) -/

/-- An outcome the invariant allows: a next state that meets it, or a refusal, but no fault. -/
def SoundOutcome (o : Result) : Prop :=
  match o with
  | .next t => t.Inv
  | .fault _ => False
  | .refused _ => True

theorem SoundOutcome.inv {o : Result} {t : State} (h : SoundOutcome o) (ho : o = .next t) : t.Inv := by
  subst ho; exact h

theorem SoundOutcome.ne_fault {o : Result} (h : SoundOutcome o) (f : Fault) : o ≠ .fault f := by
  rintro rfl; exact h

/-- An operation goes on: it has given no response and its new phase is one it can be in. -/
theorem State.Inv.toPhase {s t : State} (hs : s.Inv) (hresp : t.responses = s.responses) (hq : t.seq.wf t.acc) :
    t.Inv :=
  ⟨hresp ▸ hs.1, hq⟩

/-- An operation ends: the machine is idle and one more well formed response has been given. -/
theorem State.Inv.respondIdle {s t : State} {r : Response} (hs : s.Inv) (hr : r.wf)
    (hresp : t.responses = s.responses ++ [r]) (hq : t.seq = .idle) : t.Inv := by
  refine ⟨fun r' hr' => ?_, by rw [hq]; trivial⟩
  rw [hresp, List.mem_append, List.mem_singleton] at hr'
  rcases hr' with h | rfl
  · exact hs.1 r' h
  · exact hr

theorem withAcc_sound {s : State} {k : U32 → Result} (h : ∀ a, SoundOutcome (k a)) :
    SoundOutcome (withAcc s k) := by
  cases hs : s.acc with
  | none => rw [withAcc_none hs]; trivial
  | some a => rw [withAcc_some hs]; exact h a

theorem andThen_sound {o : Result} {k : State → Result} (ho : SoundOutcome o)
    (hk : ∀ t : State, t.Inv → SoundOutcome (k t)) : SoundOutcome (andThen o k) := by
  cases o with
  | next t => exact hk t ho
  | fault f => exact ho
  | refused x => trivial

/-! #### The phases an operation goes on to -/

theorem computePhase_wf {acc : Option U32} (data : List Byte) (i : Nat) (hacc : acc ≠ none) :
    (computePhase data i).wf acc := by
  unfold computePhase
  split
  · exact ⟨‹_›, hacc⟩
  · exact hacc

theorem firstViolation_none_of_passed {r : Resolved} (hscalars : scalarsPassed r)
    (helements : ∀ x ∈ r.res, inRange 0 255 x = true) : firstViolation r = none := by
  simp only [firstViolation_eq_or, hscalars _, Option.none_or, checkElements_none]
  exact fun x hx => (inRange_iff 0 255 x).1 (helements x hx)

theorem elementPhase_wf {acc : Option U32} (len : U64) (crc : U32) {r : Resolved} {i : Nat}
    (hscalars : scalarsPassed r) (helements : ∀ x ∈ r.res.take i, inRange 0 255 x = true) :
    (elementPhase len crc r i).wf acc := by
  unfold elementPhase
  split
  · exact ⟨‹_›, hscalars, helements⟩
  · rw [List.take_of_length_le (by omega)] at helements
    exact firstViolation_none_of_passed hscalars helements

theorem afterCheck_wf {acc : Option U32} (len : U64) (crc : U32) {r : Resolved} {f : Field}
    (hbefore : passedBefore r f) (hf : checkField r f = none) : (afterCheck len crc r f).wf acc := by
  cases f with
  | deviceType => exact hf
  | dataType => exact ⟨hbefore, hf⟩
  | protocolType =>
    refine elementPhase_wf len crc (fun g => ?_) (by simp)
    cases g with
    | deviceType => exact hbefore.1
    | dataType => exact hbefore.2
    | protocolType => exact hf

/-! #### Operations and micro-steps -/

theorem exec_sound (i : Instr) {s : State} (hs : s.Inv) (hq : s.seq = .idle) : SoundOutcome (exec i s) := by
  rcases exec_outcome i s with ⟨-, -, h⟩ | ⟨-, t, h⟩
  · rw [h]; trivial
  · rw [h]
    obtain ⟨hseq, -, r, hr, hresp⟩ := exec_frame h
    exact hs.respondIdle hr hresp (hseq.trans hq)

/-- Starting an operation performs it or brings the machine to its first phase. -/
theorem begin_cases (i : Instr) (s : State) :
    begin i s = exec i s ∨ ∃ q : Seq, begin i s = .next (setSeq q s) ∧ q.wf s.acc := by
  cases i with
  | crcByte b =>
    cases ha : s.acc with
    | none => exact .inl ((withAcc_none ha _).trans (exec_refused_of_needsAcc rfl ha).symm)
    | some a => exact .inr ⟨.byteXor b, withAcc_some ha _, Option.some_ne_none a⟩
  | crcCompute data => exact .inr ⟨.computeInit data, rfl, trivial⟩
  | hdrBuild len crc md => exact .inr ⟨.buildResolve len crc md, rfl, trivial⟩
  | crcInit | crcXorb b | crcRound | crcFinal => exact .inl rfl

theorem begin_sound (i : Instr) {s : State} (hs : s.Inv) (hq : s.seq = .idle) : SoundOutcome (begin i s) := by
  rcases begin_cases i s with h | ⟨q, h, hwf⟩ <;> rw [h]
  · exact exec_sound i hs hq
  · exact hs.toPhase rfl hwf

theorem afterCheckStep_sound {v : Option ValidationError} {q : Seq} {s : State} (hs : s.Inv)
    (herr : ∀ e, v = some e → e.wf) (hq : v = none → q.wf s.acc) : SoundOutcome (afterCheckStep v q s) := by
  cases v with
  | none => exact hs.toPhase rfl (hq rfl)
  | some e => exact hs.respondIdle (r := .err e) (herr e rfl) rfl rfl

theorem checkField_wf {r : Resolved} {f : Field} {e : ValidationError} (h : checkField r f = some e) : e.wf := by
  rw [((checkField_some r f e).1 h).1]
  exact ⟨rfl, rfl⟩

theorem checkElement_wf {i : Nat} {x : Int} {e : ValidationError} (h : checkElement i x = some e) : e.wf := by
  rcases checkElement_cases i x with hn | hs
  · rw [hn] at h; cases h
  · rw [hs] at h; cases h; exact ⟨rfl, rfl⟩

/-- One more element has passed its check. -/
theorem inRange_take_succ {res : List Int} {i : Nat} {x : Int} (hx : res[i]? = some x)
    (hpass : checkElement i x = none) (hbefore : ∀ y ∈ res.take i, inRange 0 255 y = true) :
    ∀ y ∈ res.take (i + 1), inRange 0 255 y = true := by
  intro y hy
  rw [List.take_add_one, hx, Option.toList_some, List.mem_append, List.mem_singleton] at hy
  rcases hy with h | rfl
  · exact hbefore y h
  · exact (inRange_iff 0 255 y).2 ((checkElement_none i y).1 hpass)

theorem deliverHeader_ser64 (len : U64) (crc : U32) (r : Resolved) (s : State) :
    deliverHeader (ser64 len crc r (norm47 r.res)) s =
      .next (respond (.ok (layout len crc r (norm47 r.res))) s) := by
  rw [ser64_eq, deliverHeader_cells (layout_length len crc r (norm47_length r.res))]

theorem HdrField.eq_reserved_of_next {f : HdrField} (h : f.next = none) : f = .reserved := by
  cases f <;> cases h
  rfl

/-- By cases on the phase (10_state.md R27). -/
theorem microStep_sound {s : State} (hs : s.Inv) : SoundOutcome (microStep s) := by
  have hwf := hs.2
  cases hq : s.seq <;> simp only [microStep, hq] <;> rw [hq] at hwf
  case idle => exact hs
  case byteXor b => exact withAcc_sound fun a => hs.toPhase rfl (by simp [Seq.wf])
  case byteShift k =>
    obtain ⟨hk, -, -⟩ := hwf
    refine withAcc_sound fun a => ?_
    split
    next hlt => exact hs.toPhase rfl ⟨by omega, hlt, Option.some_ne_none _⟩
    next => exact hs.respondIdle (r := .done) trivial rfl rfl
  case computeInit data => exact hs.toPhase rfl (computePhase_wf data 0 (Option.some_ne_none _))
  case computeXor data i =>
    obtain ⟨hi, -⟩ := hwf
    rw [List.getElem?_eq_getElem hi]
    exact withAcc_sound fun a => hs.toPhase rfl ⟨hi, by omega, by omega, Option.some_ne_none _⟩
  case computeShift data i k =>
    obtain ⟨hi, hk, -, -⟩ := hwf
    refine withAcc_sound fun a => ?_
    split
    next hlt => exact hs.toPhase rfl ⟨hi, by omega, hlt, Option.some_ne_none _⟩
    next => exact hs.toPhase rfl (computePhase_wf data (i + 1) (Option.some_ne_none _))
  case computeFinal => exact withAcc_sound fun a => hs.respondIdle (r := .checksum (finalOf a)) trivial rfl rfl
  case buildResolve len crc md => exact hs.toPhase rfl trivial
  case buildCheck len crc r f =>
    exact afterCheckStep_sound hs (fun _ => checkField_wf) (afterCheck_wf len crc hwf)
  case buildCheckElement len crc r i =>
    obtain ⟨hi, hscalars, hbefore⟩ := hwf
    have hx := List.getElem?_eq_getElem hi
    rw [hx]
    exact afterCheckStep_sound hs (fun _ => checkElement_wf) fun hpass =>
      elementPhase_wf len crc hscalars (inRange_take_succ hx hpass hbefore)
  case buildNorm len crc r => exact hs.toPhase rfl ⟨hwf, rfl, rfl⟩
  case buildSer len crc r res47 f m =>
    obtain ⟨hpassed, rfl, rfl⟩ := hwf
    cases hf : f.next with
    | some g => exact hs.toPhase rfl ⟨hpassed, rfl, storeFields_next len crc r _ hf⟩
    | none =>
      obtain rfl := HdrField.eq_reserved_of_next hf
      simp only [storeFields_last, deliverHeader_ser64]
      exact hs.respondIdle (r := .ok _) (layout_length len crc r (norm47_length r.res)) rfl rfl

theorem microRun_sound (n : Nat) {s : State} (hs : s.Inv) : SoundOutcome (microRun n s) := by
  induction n generalizing s with
  | zero => exact hs
  | succ n ih => exact andThen_sound (microStep_sound hs) fun _ => ih

theorem takeRequest_sound {start : Instr → State → Result} {r : Request} {s : State}
    (hstart : ∀ i, SoundOutcome (start i s)) : SoundOutcome (takeRequest start r s) := by
  unfold takeRequest
  split
  · exact hstart _
  · trivial

/-- If operations start soundly when none is in progress and are carried on soundly, every advance is sound. -/
theorem advance_sound {start : Instr → State → Result} {carryOn : State → Result}
    (hstart : ∀ (i : Instr) (s : State), s.Inv → s.seq = .idle → SoundOutcome (start i s))
    (hcarry : ∀ s : State, s.Inv → SoundOutcome (carryOn s)) {s : State} (hs : s.Inv) :
    SoundOutcome (advance start carryOn s) := by
  rcases advance_cases start carryOn s with ⟨rest, -, h⟩ | ⟨r, rest, -, hidle, h⟩ | ⟨-, -, h⟩ <;> rw [h]
  · exact hs.toPhase rfl trivial
  · exact takeRequest_sound fun i => hstart i _ (hs.toPhase rfl hs.2) hidle
  · exact hcarry s hs

theorem step_sound {s : State} (hs : s.Inv) : SoundOutcome (step s) :=
  advance_sound (fun i _ => exec_sound i) (fun s => microRun_sound s.seq.stepsLeft) hs

theorem tick_sound {s : State} (hs : s.Inv) : SoundOutcome (tick s) :=
  advance_sound (fun i _ => begin_sound i) (fun _ => microStep_sound) hs

/-- Settles O38: an operation ends idle with a well formed response, and one found in progress is a run of
micro-steps. -/
theorem stepKeepsSound : Obligations.StepKeepsSound :=
  fun _ _ hs h => (step_sound hs).inv h

/-- Settles O39, by cases on the phase the micro-step starts from. -/
theorem tickKeepsSound : Obligations.TickKeepsSound :=
  fun _ _ hs h => (tick_sound hs).inv h

/-- Settles O40: the invariant fixes the header space a last store completes, so 64 bytes are delivered. -/
theorem soundStatesNeverFault : Obligations.SoundStatesNeverFault :=
  fun _ f hs => ⟨(step_sound hs).ne_fault f, (tick_sound hs).ne_fault f⟩

/-- Settles O37: nothing is in progress and no response has been given. -/
theorem resetStateIsSound : Obligations.ResetStateIsSound :=
  ⟨fun _ h => (List.not_mem_nil h).elim, trivial⟩

/-! ### Each operation runs to completion (20_memory.md R64) -/

/-- A count of the micro-steps still to make that every micro-step lowers, also in a phase with an index off its range:
`stepsLeft` bounds it, and does not itself fall with every micro-step. -/
def Seq.measure (q : Seq) : Nat :=
  match q with
  | .byteShift k => 8 - k + 1
  | .computeXor data i => max 2 (9 * (data.length - i) + 1)
  | .computeShift data i k => 8 - k + 1 + 9 * (data.length - (i + 1)) + 1
  | .buildCheckElement _ _ r i => max 8 (r.res.length - i + 7)
  | q => q.stepsLeft

theorem Seq.measure_le_stepsLeft (q : Seq) : q.measure ≤ q.stepsLeft := by
  cases q <;> simp only [Seq.measure, Seq.stepsLeft] <;> omega

theorem Seq.measure_pos {q : Seq} (h : q ≠ .idle) : 0 < q.measure := by
  cases q with
  | idle => exact absurd rfl h
  | buildSer len crc r res47 f m => cases f <;> simp [Seq.measure, Seq.stepsLeft, storesLeft]
  | _ => simp only [Seq.measure, Seq.stepsLeft]; omega

theorem measure_computePhase_le (data : List Byte) (i : Nat) :
    (computePhase data i).measure ≤ 9 * (data.length - i) + 1 := by
  unfold computePhase
  split <;> simp only [Seq.measure, Seq.stepsLeft] <;> omega

theorem measure_elementPhase_le (len : U64) (crc : U32) (r : Resolved) (i : Nat) :
    (elementPhase len crc r i).measure ≤ r.res.length - i + 7 := by
  unfold elementPhase
  split <;> simp only [Seq.measure, Seq.stepsLeft] <;> omega

theorem measure_afterCheck_lt (len : U64) (crc : U32) (r : Resolved) (f : Field) :
    (afterCheck len crc r f).measure < (Seq.buildCheck len crc r f).measure := by
  have := measure_elementPhase_le len crc r 0
  cases f <;> simp only [afterCheck, Seq.measure, Seq.stepsLeft] at * <;> omega

theorem storesLeft_next {f g : HdrField} (h : f.next = some g) : storesLeft g < storesLeft f := by
  cases f <;> cases h <;> decide

/-- What a micro-step of an operation in progress leaves and does: no input is taken, the measure falls, and a response
is given only by a step that ends the operation. -/
structure Progress (s t : State) : Prop where
  inputs_eq : t.inputs = s.inputs
  measure_lt : t.seq.measure < s.seq.measure
  quiet : t.seq = .idle ∨ t.responses = s.responses

theorem Progress.toPhase {s u : State} {q : Seq} (hinputs : u.inputs = s.inputs)
    (hresp : u.responses = s.responses) (hlt : q.measure < s.seq.measure) : Progress s (setSeq q u) :=
  ⟨hinputs, hlt, .inr hresp⟩

theorem Progress.of_idle {s t : State} (hinputs : t.inputs = s.inputs) (ht : t.seq = .idle) (hs : s.seq ≠ .idle) :
    Progress s t :=
  ⟨hinputs, by rw [ht]; exact Seq.measure_pos hs, .inl ht⟩

theorem afterCheckStep_progress {v : Option ValidationError} {q : Seq} {s t : State}
    (h : afterCheckStep v q s = .next t) (hs : s.seq ≠ .idle) (hq : q.measure < s.seq.measure) : Progress s t := by
  cases v with
  | none => cases h; exact ⟨rfl, hq, .inr rfl⟩
  | some e => cases h; exact .of_idle rfl rfl hs

theorem microStep_progress {s t : State} (h : microStep s = .next t) (hs : s.seq ≠ .idle) : Progress s t := by
  cases hq : s.seq <;> simp only [microStep, hq] at h
  case idle => exact absurd hq hs
  case byteXor b =>
    obtain ⟨a, -, h⟩ := withAcc_next h
    cases h
    exact .toPhase rfl rfl (by simp [hq, Seq.measure, Seq.stepsLeft])
  case byteShift k =>
    obtain ⟨a, -, h⟩ := withAcc_next h
    split at h
    next hk =>
      cases h
      exact .toPhase rfl rfl (by simp [hq, Seq.measure, Config.rounds] at *; omega)
    next => cases h; exact .of_idle rfl rfl hs
  case computeInit data =>
    cases h
    exact .toPhase rfl rfl
      ((measure_computePhase_le data 0).trans_lt (by simp only [hq, Seq.measure, Seq.stepsLeft]; omega))
  case computeXor data i =>
    split at h
    next b hb =>
      obtain ⟨hi, -⟩ := List.getElem?_eq_some_iff.1 hb
      obtain ⟨a, -, h⟩ := withAcc_next h
      cases h
      exact .toPhase rfl rfl (by simp only [hq, Seq.measure]; omega)
    next => cases h; exact .toPhase rfl rfl (by simp only [hq, Seq.measure, Seq.stepsLeft]; omega)
  case computeShift data i k =>
    obtain ⟨a, -, h⟩ := withAcc_next h
    split at h
    next hk =>
      cases h
      exact .toPhase rfl rfl (by simp only [hq, Seq.measure, Config.rounds] at *; omega)
    next =>
      cases h
      exact .toPhase rfl rfl
        ((measure_computePhase_le data (i + 1)).trans_lt (by simp only [hq, Seq.measure]; omega))
  case computeFinal =>
    obtain ⟨a, -, h⟩ := withAcc_next h
    cases h
    exact .of_idle rfl rfl hs
  case buildResolve len crc md =>
    cases h
    exact .toPhase rfl rfl (by simp only [hq, Seq.measure, Seq.stepsLeft]; omega)
  case buildCheck len crc r f =>
    exact afterCheckStep_progress h hs (hq ▸ measure_afterCheck_lt len crc r f)
  case buildCheckElement len crc r i =>
    split at h
    next x hx =>
      obtain ⟨hi, -⟩ := List.getElem?_eq_some_iff.1 hx
      exact afterCheckStep_progress h hs
        ((measure_elementPhase_le len crc r (i + 1)).trans_lt (by simp only [hq, Seq.measure]; omega))
    next => cases h; exact .toPhase rfl rfl (by simp only [hq, Seq.measure, Seq.stepsLeft]; omega)
  case buildNorm len crc r => 
    cases h
    exact .toPhase rfl rfl (by simp [hq, Seq.measure, Seq.stepsLeft, storesLeft])
  case buildSer len crc r res47 f m =>
    split at h
    next g hg => cases h; exact .toPhase rfl rfl (hq ▸ storesLeft_next hg)
    next =>
      unfold deliverHeader at h
      split at h
      · cases h; exact .of_idle rfl rfl hs
      · cases h

/-- Enough micro-steps end the operation in progress. -/
theorem microRun_ends {n : Nat} {s t : State} (hn : s.seq.measure ≤ n) (h : microRun n s = .next t) :
    t.seq = .idle := by
  induction n generalizing s with
  | zero =>
    cases h
    by_contra hs
    exact absurd (Seq.measure_pos hs) (by omega)
  | succ n ih =>
    by_cases hs : s.seq = .idle
    · rw [microRun_idle hs] at h
      cases h
      exact hs
    · obtain ⟨u, hu, h⟩ := andThen_eq_next h
      have := (microStep_progress hu hs).measure_lt
      exact ih (by omega) h

/-- Micro-steps past the end of an operation change nothing. -/
theorem microRun_add_of_ends {m n : Nat} {s : State} (h : ∀ t, microRun m s = .next t → t.seq = .idle) :
    microRun (m + n) s = microRun m s := by
  rw [microRun_add]
  cases hm : microRun m s with
  | next t => exact microRun_idle (h t hm) n
  | fault f => rfl
  | refused x => rfl

theorem microRun_eq_finish {n : Nat} {s : State} (hn : s.seq.measure ≤ n) : microRun n s = finish s := by
  obtain ⟨d, hd⟩ := Nat.exists_eq_add_of_le hn
  obtain ⟨d', hd'⟩ := Nat.exists_eq_add_of_le s.seq.measure_le_stepsLeft
  rw [finish, hd, hd', microRun_add_of_ends fun _ => microRun_ends le_rfl,
    microRun_add_of_ends fun _ => microRun_ends le_rfl]

theorem finish_ends {s t : State} (h : finish s = .next t) : t.seq = .idle :=
  microRun_ends s.seq.measure_le_stepsLeft h

theorem finish_idle {s : State} (h : s.seq = .idle) : finish s = .next s := microRun_idle h _

/-- Running an operation to its end is one micro-step and running what is left of it. -/
theorem finish_busy {s : State} (hs : s.seq ≠ .idle) : finish s = andThen (microStep s) finish := by
  rw [← microRun_eq_finish (Nat.le_succ _), microRun]
  cases h : microStep s with
  | next t => exact microRun_eq_finish (microStep_progress h hs).measure_lt.le
  | fault f => rfl
  | refused x => rfl

/-- Settles O41: an operation issued to an idle machine leaves it idle, and one found in progress makes more
micro-steps than its measure. -/
theorem stepEndsIdle : Obligations.StepEndsIdle := by
  intro s t h
  rcases advance_cases exec finish s with ⟨rest, -, ha⟩ | ⟨r, rest, -, hidle, ha⟩ | ⟨-, -, ha⟩ <;>
    rw [step, ha] at h
  · cases h; rfl
  · unfold takeRequest at h
    split at h
    · exact (exec_frame h).1.trans hidle
    · cases h
  · exact finish_ends h

/-! ### Micro-steps against the operation's meaning (10_state.md R27) -/

theorem setSeq_of_eq {q : Seq} {s : State} (h : s.seq = q) : setSeq q s = s := by
  subst h; rfl

/-- What is left after some micro-steps ends as the whole does. -/
theorem finish_of_microRun {n : Nat} {s t : State} (h : microRun n s = .next t) : finish s = finish t := by
  rw [← microRun_eq_finish (n := n + (s.seq.measure + t.seq.measure)) (by omega), microRun_add, h, andThen_next,
    microRun_eq_finish (Nat.le_add_left _ _)]

theorem microRun_one (s : State) : microRun 1 s = microStep s := andThen_id _

/-! #### CRC.BYTE -/

theorem microStep_byteXor (b : Byte) {s : State} {a : U32} (h : s.acc = some a) :
    microStep (setSeq (.byteXor b) s) = .next (setSeq (.byteShift 1) (writeAcc (xorByte a b) s)) :=
  withAcc_some h _

theorem microRun_byteXor (b : Byte) {s : State} {a : U32} (h : s.acc = some a) :
    microRun 9 (setSeq (.byteXor b) s) = .next (respond .done (setSeq .idle (writeAcc (byteStep a b) s))) := by
  rw [microRun, microStep_byteXor b h, andThen_next]
  exact microRun_byteShift 7 1 (s := writeAcc (xorByte a b) s) rfl rfl

/-- Rounds before the last leave CRC.BYTE in progress. -/
theorem microRun_byteShift_partial (k j : Nat) {s : State} (hk : j + k ≤ 8) (h : s.acc ≠ none) :
    ∃ t, microRun k (setSeq (.byteShift j) s) = .next t ∧ t.seq = .byteShift (j + k) := by
  induction k generalizing j s with
  | zero => exact ⟨_, rfl, rfl⟩
  | succ k ih =>
    obtain ⟨a, ha⟩ := Option.ne_none_iff_exists'.1 h
    have hround : microStep (setSeq (.byteShift j) s) =
        .next (setSeq (.byteShift (j + 1)) (writeAcc (round a) s)) :=
      (withAcc_some ha _).trans (if_pos (show j < 8 by omega))
    obtain ⟨t, ht, hseq⟩ := ih (j + 1) (s := writeAcc (round a) s) (by omega) (Option.some_ne_none _)
    exact ⟨t, by rw [microRun, hround]; exact ht, by rw [hseq]; congr 1; omega⟩

/-! #### CRC.COMPUTE -/

theorem microRun_computeInit (data : List Byte) (s : State) :
    microRun (1 + 9 * data.length) (setSeq (.computeInit data) s) =
      .next (setSeq .computeFinal (writeAcc (absorb Config.init data) s)) := by
  rw [microRun_add, microRun_one]
  exact microRun_computePhase data data.length 0 (s := writeAcc Config.init s) rfl (Nat.zero_le _) rfl

theorem microStep_computeFinal {s : State} {a : U32} (h : s.acc = some a) :
    microStep (setSeq .computeFinal s) = .next (respond (.checksum (finalOf a)) (setSeq .idle s)) :=
  withAcc_some h _

theorem microRun_compute (data : List Byte) (s : State) :
    microRun (1 + 9 * data.length + 1) (setSeq (.computeInit data) s) =
      .next (respond (.checksum (computeChecksum data)) (setSeq .idle (writeAcc (absorb Config.init data) s))) := by
  rw [microRun_add, microRun_computeInit, andThen_next, microRun_one]
  exact microStep_computeFinal rfl

/-! #### HDR.BUILD -/

section Build

variable (len : U64) (crc : U32) (md : FirmwareMetadata) (r : Resolved) (s : State)

theorem microStep_buildResolve :
    microStep (setSeq (.buildResolve len crc md) s) = .next (setSeq (.buildCheck len crc (resolve md) .deviceType) s) :=
  rfl

theorem microStep_buildNorm :
    microStep (setSeq (.buildNorm len crc r) s) =
      .next (setSeq (.buildSer len crc r (norm47 r.res) .expectedSize []) s) :=
  rfl

theorem finish_buildCheck (f : Field) :
    finish (setSeq (.buildCheck len crc r f) s) =
      match checkField r f with
      | some e => .next (raise e (setSeq .idle s))
      | none => finish (setSeq (afterCheck len crc r f) s) := by
  rw [finish_busy (by simp)]
  cases h : checkField r f with
  | some e => rw [microStep_checkFails s h]; exact finish_idle rfl
  | none => rw [microStep_checkPasses s h]; rfl

theorem finish_elementPhase :
    finish (setSeq (elementPhase len crc r 0) s) =
      match checkElements 0 r.res with
      | some e => .next (raise e (setSeq .idle s))
      | none => finish (setSeq (.buildNorm len crc r) s) := by
  obtain ⟨pass, fail⟩ := microRun_elementPhase len crc r r.res.length 0 s rfl (Nat.zero_le _)
  cases h : checkElements 0 r.res with
  | none => exact finish_of_microRun (pass h)
  | some e =>
    obtain ⟨n, -, -, -, hraise⟩ := fail e h
    exact (finish_of_microRun hraise).trans (finish_idle rfl)

theorem finish_buildNorm :
    finish (setSeq (.buildNorm len crc r) s) =
      .next (respond (.ok (layout len crc r (norm47 r.res))) (setSeq .idle s)) := by
  rw [finish_busy (by simp), microStep_buildNorm, andThen_next, ← deliverHeader_ser64]
  exact microRun_buildSer len crc r (norm47 r.res) s

/-- The checks and the stores are the operation's meaning, from an idle machine. -/
theorem finish_buildResolve :
    finish (setSeq (.buildResolve len crc md) s) = exec (.hdrBuild len crc md) (setSeq .idle s) := by
  rw [finish_busy (by simp), microStep_buildResolve, andThen_next, exec, execHdrBuild_eq, firstViolation]
  rw [finish_buildCheck]
  cases checkField (resolve md) .deviceType with
  | some e => rfl
  | none =>
    simp only [afterCheck]
    rw [finish_buildCheck]
    cases checkField (resolve md) .dataType with
    | some e => rfl
    | none =>
      simp only [afterCheck]
      rw [finish_buildCheck]
      cases checkField (resolve md) .protocolType with
      | some e => rfl
      | none =>
        simp only [afterCheck]
        rw [finish_elementPhase]
        cases checkElements 0 (resolve md).res with
        | some e => rfl
        | none => exact finish_buildNorm len crc (resolve md) s

end Build

/-- An operation performed from an idle machine leaves nothing to finish. -/
theorem andThen_exec_finish (i : Instr) {s : State} (hs : s.seq = .idle) : andThen (exec i s) finish = exec i s := by
  cases h : exec i s with
  | next t => exact finish_idle ((exec_frame h).1.trans hs)
  | fault f => rfl
  | refused x => rfl

/-- Settles O43: the operations with micro-steps are run to their end, part by part; the others are one step. -/
theorem microStepsGiveTheOperation : Obligations.MicroStepsGiveTheOperation := by
  intro i s hs
  cases i with
  | crcByte b =>
    cases ha : s.acc with
    | none => rw [begin, withAcc_none ha, exec_refused_of_needsAcc rfl ha]; rfl
    | some a =>
      rw [begin, withAcc_some ha, exec_crcByte b ha]
      refine (microRun_byteXor b ha).trans ?_
      rw [setSeq_of_eq (s := writeAcc _ s) hs]
      rfl
  | crcCompute data =>
    refine (finish_of_microRun (microRun_compute data s)).trans ((finish_idle rfl).trans ?_)
    rw [setSeq_of_eq (s := writeAcc _ s) hs]
    rfl
  | hdrBuild len crc md =>
    refine (finish_buildResolve len crc md s).trans ?_
    rw [setSeq_of_eq hs]
  | crcInit => exact andThen_exec_finish .crcInit hs
  | crcXorb b => exact andThen_exec_finish (.crcXorb b) hs
  | crcRound => exact andThen_exec_finish .crcRound hs
  | crcFinal => exact andThen_exec_finish .crcFinal hs

/-! ### Ticks against steps (10_state.md R27, 20_memory.md R64) -/

/-- A machine with an operation in progress and no reset in line makes that operation's next micro-step. -/
theorem tick_busy {s : State} (hs : s.seq ≠ .idle) (hr : s.inputs.head? ≠ some .reset) : tick s = microStep s := by
  rcases advance_cases begin microStep s with ⟨rest, hin, -⟩ | ⟨r, rest, -, hidle, -⟩ | ⟨-, -, h⟩
  · exact absurd (by rw [hin]; rfl) hr
  · exact absurd hidle hs
  · exact h

theorem tickRun_one (s : State) : tickRun 1 s = tick s := andThen_id _

/-- Between the start of an operation and its end the host sees no response and has no further input taken. -/
def QuietUntil (n : Nat) (s : State) (resp : List Response) (inputs : List HostInput) : Prop :=
  ∀ m u, m < n → tickRun m s = .next u → u.seq ≠ .idle ∧ u.responses = resp ∧ u.inputs = inputs

theorem QuietUntil.one {s : State} (hs : s.seq ≠ .idle) : QuietUntil 1 s s.responses s.inputs := by
  intro m u hm h
  obtain rfl : m = 0 := by omega
  cases h
  exact ⟨hs, rfl, rfl⟩

theorem QuietUntil.succ {n : Nat} {s t : State} (hs : s.seq ≠ .idle) (ht : tick s = .next t)
    (h : QuietUntil n t s.responses s.inputs) : QuietUntil (n + 1) s s.responses s.inputs := by
  intro m u hm hu
  cases m with
  | zero => cases hu; exact ⟨hs, rfl, rfl⟩
  | succ m =>
    rw [tickRun, ht] at hu
    exact h m u (by omega) hu

/-- An operation in progress that no reset abandons is run to its end by ticks. -/
theorem tickRun_finish {s : State} (hs : s.seq ≠ .idle) (hr : s.inputs.head? ≠ some .reset) :
    ∃ n, 0 < n ∧ tickRun n s = finish s ∧ QuietUntil n s s.responses s.inputs := by
  induction hm : s.seq.measure using Nat.strong_induction_on generalizing s with
  | _ k ih =>
    have htick := tick_busy hs hr
    have hends (h : andThen (microStep s) finish = microStep s) : tickRun 1 s = finish s := by
      rw [tickRun_one, htick, finish_busy hs, h]
    cases hstep : microStep s with
    | fault f => exact ⟨1, one_pos, hends (by rw [hstep]; rfl), .one hs⟩
    | refused x => exact ⟨1, one_pos, hends (by rw [hstep]; rfl), .one hs⟩
    | next t =>
      obtain ⟨hin, hlt, hquiet⟩ := microStep_progress hstep hs
      by_cases ht : t.seq = .idle
      · exact ⟨1, one_pos, hends (by rw [hstep]; exact finish_idle ht), .one hs⟩
      · have hresp := hquiet.resolve_left ht
        obtain ⟨n, -, hrun, hq⟩ := ih _ (hm ▸ hlt) ht (hin ▸ hr) rfl
        rw [hresp, hin] at hq
        rw [hstep] at htick
        refine ⟨n + 1, n.succ_pos, ?_, .succ hs htick hq⟩
        rw [tickRun, htick, andThen_next, hrun, finish_busy hs, hstep]
        rfl

theorem begin_next {i : Instr} {s t : State} (h : begin i s = .next t) (hs : s.seq = .idle) :
    t.inputs = s.inputs ∧ (t.seq = .idle ∨ t.responses = s.responses) := by
  rcases begin_cases i s with hexec | ⟨q, hphase, -⟩
  · obtain ⟨hseq, hinputs, -⟩ := exec_frame (hexec.symm.trans h)
    exact ⟨hinputs, .inl (hseq.trans hs)⟩
  · rw [hphase] at h
    cases h
    exact ⟨rfl, .inr rfl⟩

theorem advance_of_issue (start : Instr → State → Result) (carryOn : State → Result) {s : State} {r : Request}
    {rest : List HostInput} (hs : s.seq = .idle) (hin : s.inputs = .issue r :: rest) :
    advance start carryOn s = takeRequest start r { s with inputs := rest } := by
  simp only [advance, hin, hs]

/-- Settles O44: the first tick starts the operation, the others are its micro-steps, and both end as its meaning
does. -/
theorem ticksRefineTheStep : Obligations.TicksRefineTheStep := by
  intro s r rest hs hin hr
  have htick : tick s = takeRequest begin r { s with inputs := rest } := advance_of_issue _ _ hs hin
  have hstep : step s = takeRequest exec r { s with inputs := rest } := advance_of_issue _ _ hs hin
  have hone (h : tick s = step s) : ∃ n, 0 < n ∧ tickRun n s = step s ∧
      ∀ m u, 0 < m → m < n → tickRun m s = .next u →
        u.seq ≠ .idle ∧ u.responses = s.responses ∧ u.inputs = rest :=
    ⟨1, one_pos, (tickRun_one s).trans h, fun m u hpos hlt => absurd hlt (by omega)⟩
  cases hd : decode r with
  | error e => exact hone (by rw [htick, hstep]; simp only [takeRequest, hd])
  | ok i =>
    simp only [takeRequest, hd] at htick hstep
    rw [← microStepsGiveTheOperation i { s with inputs := rest } hs, ← htick] at hstep
    cases hbegin : tick s with
    | fault f => exact hone (by rw [hstep, hbegin]; rfl)
    | refused x => exact hone (by rw [hstep, hbegin]; rfl)
    | next t =>
      rw [hbegin] at htick hstep
      obtain ⟨htin, htquiet⟩ := begin_next htick.symm hs
      by_cases ht : t.seq = .idle
      · exact hone (by rw [hstep, hbegin]; exact (finish_idle ht).symm)
      · obtain ⟨n, -, hrun, hquiet⟩ := tickRun_finish ht (by rw [htin]; exact hr)
        refine ⟨n + 1, n.succ_pos, ?_, fun m u hpos hlt hu => ?_⟩
        · rw [tickRun, hbegin, hstep]
          exact hrun
        · obtain ⟨m, rfl⟩ := Nat.exists_eq_add_of_lt hpos
          rw [zero_add, tickRun, hbegin] at hu
          obtain ⟨hbusy, hresp, hinputs⟩ := hquiet m u (by omega) hu
          exact ⟨hbusy, hresp.trans (htquiet.resolve_left ht), hinputs.trans htin⟩

/-! ### The counts (40_checksum_engine.md R138, 41_header_builder.md R169) -/

/-- Unless a scalar field's error is the first violation, the scalar checks pass. -/
theorem scalarsPassed_of_firstViolation {r : Resolved}
    (h : ∀ f lo hi, firstViolation r ≠ some (.outOfRangeField f lo hi)) : scalarsPassed r := by
  rw [firstViolation_eq_or] at h
  have hdev : checkField r .deviceType = none :=
    (checkField_cases r .deviceType).resolve_right fun hf => h _ _ _ (by rw [hf]; rfl)
  have hdat : checkField r .dataType = none :=
    (checkField_cases r .dataType).resolve_right fun hf => h _ _ _ (by rw [hdev, hf]; rfl)
  have hpro : checkField r .protocolType = none :=
    (checkField_cases r .protocolType).resolve_right fun hf => h _ _ _ (by rw [hdev, hdat, hf]; rfl)
  intro f
  cases f with
  | deviceType => exact hdev
  | dataType => exact hdat
  | protocolType => exact hpro

theorem firstViolation_of_scalarsPassed {r : Resolved} (h : scalarsPassed r) :
    firstViolation r = checkElements 0 r.res := by
  simp only [firstViolation_eq_or, h _, Option.none_or]

section Build

variable (len : U64) (crc : U32) {md : FirmwareMetadata} (s : State)

/-- The resolution and the three scalar checks. -/
theorem microRun_buildResolve (h : scalarsPassed (resolve md)) :
    microRun (1 + 3) (setSeq (.buildResolve len crc md) s) =
      .next (setSeq (elementPhase len crc (resolve md) 0) s) := by
  simp only [microRun, microStep_buildResolve, andThen_next, microStep_checkPasses _ (h _), afterCheck]

theorem microRun_buildChecks (h : firstViolation (resolve md) = none) :
    microRun (1 + (3 + (resolve md).res.length)) (setSeq (.buildResolve len crc md) s) =
      .next (setSeq (.buildNorm len crc (resolve md)) s) := by
  have hscalars := scalarsPassed_of_firstViolation (r := resolve md) (by simp [h])
  rw [firstViolation_of_scalarsPassed hscalars] at h
  rw [← Nat.add_assoc, microRun_add, microRun_buildResolve len crc s hscalars, andThen_next]
  exact (microRun_elementPhase len crc (resolve md) _ 0 s rfl (Nat.zero_le _)).1 h

theorem microRun_buildNormalised (h : firstViolation (resolve md) = none) :
    microRun (1 + (3 + (resolve md).res.length) + 1) (setSeq (.buildResolve len crc md) s) =
      .next (setSeq (.buildSer len crc (resolve md) (norm47 (resolve md).res) .expectedSize []) s) := by
  rw [microRun_add, microRun_buildChecks len crc s h, andThen_next, microRun_one, microStep_buildNorm]

theorem microRun_firstFiveStores (r : Resolved) (res47 : List Byte) :
    ∃ t m, microRun 5 (setSeq (.buildSer len crc r res47 .expectedSize []) s) = .next t ∧
      t.seq = .buildSer len crc r res47 .reserved m :=
  ⟨_, _, rfl, rfl⟩

/-- The checks up to a failing element, which the next one reports. -/
theorem microRun_buildFails {i : Nat}
    (h : firstViolation (resolve md) = some (.outOfRangeReservedElement i 0 255)) :
    microRun (1 + 3 + i) (setSeq (.buildResolve len crc md) s) =
        .next (setSeq (.buildCheckElement len crc (resolve md) i) s) ∧
      microRun (1 + 3 + (i + 1)) (setSeq (.buildResolve len crc md) s) =
        .next (raise (.outOfRangeReservedElement i 0 255) (setSeq .idle s)) := by
  have hscalars := scalarsPassed_of_firstViolation (r := resolve md) (by simp [h])
  rw [firstViolation_of_scalarsPassed hscalars] at h
  obtain ⟨n, -, he, hbefore, hraise⟩ :=
    (microRun_elementPhase len crc (resolve md) _ 0 s rfl (Nat.zero_le _)).2 _ h
  obtain rfl : i = n := by simpa using he
  rw [Nat.zero_add] at hbefore
  rw [microRun_add, microRun_add _ (i + 1), microRun_buildResolve len crc s hscalars]
  exact ⟨hbefore, hraise⟩

end Build

/-- Settles O45: the runs of micro-steps that the parts of each operation make, counted. -/
theorem microStepCounts : Obligations.MicroStepCounts := by
  refine ⟨fun s b hacc => ?_, fun s data => ?_, fun s len crc md hpass => ?_, fun s len crc md i hfail => ?_⟩
  · obtain ⟨a, ha⟩ := Option.ne_none_iff_exists'.1 hacc
    refine ⟨?_, _, microRun_byteXor b ha, rfl⟩
    rw [microRun, microStep_byteXor b ha, andThen_next]
    exact microRun_byteShift_partial 7 1 (s := writeAcc (xorByte a b) s) le_rfl (Option.some_ne_none _)
  · exact ⟨⟨_, microRun_computeInit data s, rfl⟩, _, microRun_compute data s, rfl⟩
  · have hnorm := microRun_buildNormalised len crc s hpass
    refine ⟨⟨_, hnorm, rfl⟩, ?_, ?_⟩
    · rw [microRun_add, hnorm]
      exact microRun_firstFiveStores len crc s (resolve md) _
    · rw [microRun_add, hnorm, andThen_next, microRun_buildSer, deliverHeader_ser64]
      exact ⟨_, rfl, rfl⟩
  · obtain ⟨hbefore, hraise⟩ := microRun_buildFails len crc s hfail
    exact ⟨⟨_, hbefore, rfl⟩, _, hraise, rfl, rfl⟩

/-! ### Steps and resets -/

/-- Settles O19: reset is taken at once, at either granularity. -/
theorem resetEventLeavesTheOtherInputs : Obligations.ResetEventLeavesTheOtherInputs := by
  intro s rest h
  have hstep : step s = .next (takeReset { s with inputs := rest }) := advance_of_reset exec finish h
  exact ⟨hstep, (advance_of_reset begin microStep h).trans hstep.symm⟩

theorem step_of_decode {s : State} {r : Request} {rest : List HostInput} {i : Instr} (hs : s.seq = .idle)
    (hin : s.inputs = .issue r :: rest) (hd : decode r = .ok i) : step s = exec i { s with inputs := rest } := by
  rw [step, advance_of_issue exec finish hs hin]
  simp only [takeRequest, hd]

/-- Settles O34: the request first in line is decoded and performed. -/
theorem stepRunsTheDecodedOperation : Obligations.StepRunsTheDecodedOperation :=
  fun _ _ _ _ hs hin hd => step_of_decode hs hin hd

/-- Settles O35: an idle machine without inputs carries nothing on. -/
theorem idleStepChangesNothing : Obligations.IdleStepChangesNothing := by
  intro s hs hin
  have hcarry (start : Instr → State → Result) (carryOn : State → Result) :
      advance start carryOn s = carryOn s := by
    simp only [advance, hin]
  constructor
  · exact (hcarry exec finish).trans (finish_idle hs)
  · rw [tick, hcarry, ← microRun_one]
    exact microRun_idle hs 1

theorem decodeTableWord_some {nbits w : Nat} {i : Instr} (h : decodeTableWord nbits w = some i) :
    decode (wordRequest nbits w) = .ok i := by
  unfold decodeTableWord at h
  split at h
  · cases hd : decode (wordRequest nbits w) with
    | ok j => rw [hd] at h; cases h; rfl
    | error e => rw [hd] at h; cases h
  · cases h

/-- Settles O36: the placed word is first in line of an idle machine. -/
theorem placedWordIsTakenNext : Obligations.PlacedWordIsTakenNext :=
  fun _ _ _ _ h => step_of_decode rfl rfl (decodeTableWord_some h)

/-- Settles O55: a copy's step replaces its own entry of the list and no other. -/
theorem copiesShareNothing : Obligations.CopiesShareNothing := by
  intro cs cs' i h
  unfold stepCopy at h
  cases hstep : step cs[i] with
  | next t =>
    rw [hstep] at h
    cases h
    exact ⟨List.length_set, ⟨t, rfl, List.getElem?_set_self i.isLt⟩, fun j hj => List.getElem?_set_ne hj.symm⟩
  | fault f => rw [hstep] at h; cases h
  | refused x => rw [hstep] at h; cases h

/-! ### A round, bit by bit (40_checksum_engine.md R131) -/

theorem topBit_xor (a a' : U32) : topBit (a ^^^ a') = (topBit a ^^ topBit a') := BitVec.getLsbD_xor

/-- Both data paths of a round in one: the feedback is added where the top bit is set. -/
theorem round_eq (a : U32) : round a = (a <<< 1) ^^^ (if topBit a then Config.poly else 0#32) := by
  unfold round
  split <;> simp

theorem getLsbD_round (a : U32) {i : Nat} (hi : i < 32) : (round a).getLsbD i = galoisBit a i := by
  have hfeedback (j : Nat) :
      (if topBit a then Config.poly else 0#32).getLsbD j = (topBit a && Config.poly.getLsbD j) := by
    cases topBit a <;> simp
  rw [round_eq, BitVec.getLsbD_xor, hfeedback]
  cases i with
  | zero => simp [galoisBit]
  | succ i => simp [galoisBit, hi, BitVec.getLsbD_eq_getElem (show i < 32 by omega)]

theorem getLsbD_unround (a : U32) {i : Nat} (hi : i < 32) :
    (unround a).getLsbD i =
      if i = 31 then a.getLsbD 0 else a.getLsbD (i + 1) ^^ (a.getLsbD 0 && Config.poly.getLsbD (i + 1)) := by
  have htop : (0x80000000#32).getLsbD i = decide (i = 31) := by
    have : ∀ j : Fin 32, (0x80000000#32).getLsbD j = decide (j.val = 31) := by decide
    exact this ⟨i, hi⟩
  unfold unround
  rw [Nat.add_comm i 1]
  cases h0 : a.getLsbD 0 with
  | true =>
    by_cases h31 : i = 31
    · simp [h31]
    · simp [htop, h31]
  | false =>
    by_cases h31 : i = 31
    · simp [h31]
    · simp [h31]

theorem poly_lowBit : Config.poly.getLsbD 0 = true := by decide

theorem unround_round (a : U32) : unround (round a) = a := by
  have hlow : (round a).getLsbD 0 = topBit a := by
    rw [getLsbD_round a (by omega), galoisBit, poly_lowBit, Bool.and_true]
  apply BitVec.eq_of_getLsbD_eq
  intro i hi
  rw [getLsbD_unround _ hi, hlow]
  split
  · subst_vars; rfl
  · rw [getLsbD_round a (by omega), galoisBit, Bool.xor_assoc, Bool.xor_self, Bool.xor_false]

theorem round_unround (a : U32) : round (unround a) = a := by
  have htop : topBit (unround a) = a.getLsbD 0 := by rw [topBit, getLsbD_unround a (by omega), if_pos rfl]
  apply BitVec.eq_of_getLsbD_eq
  intro i hi
  rw [getLsbD_round _ hi]
  cases i with
  | zero => rw [galoisBit, htop, poly_lowBit, Bool.and_true]
  | succ i =>
    rw [galoisBit, htop, getLsbD_unround a (by omega), if_neg (by omega), Bool.xor_assoc, Bool.xor_self,
      Bool.xor_false]

/-- The taps are the set bits of POLY. -/
theorem poly_taps (i : Nat) : Config.poly.getLsbD i = true ↔ i ∈ taps := by
  by_cases hi : i < 32
  · have : ∀ j : Fin 32, Config.poly.getLsbD j = true ↔ j.val ∈ taps := by decide
    exact this ⟨i, hi⟩
  · have hmax : ∀ j ∈ taps, j < 32 := by decide
    rw [BitVec.getLsbD_of_ge _ _ (not_lt.1 hi)]
    exact ⟨fun h => absurd h Bool.false_ne_true, fun h => absurd (hmax i h) hi⟩

/-- Settles O47: a round and its undoing, each as what it does to every bit. -/
theorem roundIsTheGaloisRegister : Obligations.RoundIsTheGaloisRegister :=
  ⟨fun a _ hi => getLsbD_round a hi, poly_taps, unround_round, round_unround⟩

/-! ### Linearity (R134) -/

theorem round_xor (a a' : U32) : round (a ^^^ a') = round a ^^^ round a' := by
  have hfeedback : (if topBit (a ^^^ a') then Config.poly else 0#32) =
      (if topBit a then Config.poly else 0#32) ^^^ (if topBit a' then Config.poly else 0#32) := by
    rw [topBit_xor]
    cases topBit a <;> cases topBit a' <;> simp
  rw [round_eq, round_eq, round_eq, hfeedback, BitVec.shiftLeft_xor_distrib]
  ac_rfl

theorem rounds_xor (k : Nat) (a a' : U32) : rounds k (a ^^^ a') = rounds k a ^^^ rounds k a' := by
  induction k generalizing a a' with
  | zero => rfl
  | succ k ih => rw [rounds_succ, round_xor, ih]; rfl

theorem byteOperand_xor (b b' : Byte) : byteOperand (b ^^^ b') = byteOperand b ^^^ byteOperand b' := by
  simp only [byteOperand, BitVec.setWidth_xor, BitVec.shiftLeft_xor_distrib]

theorem xor_xor_xor_comm {w : Nat} (a b c d : BitVec w) : (a ^^^ b) ^^^ (c ^^^ d) = (a ^^^ c) ^^^ (b ^^^ d) := by
  ac_rfl

theorem xorByte_xor (a a' : U32) (b b' : Byte) :
    xorByte (a ^^^ a') (b ^^^ b') = xorByte a b ^^^ xorByte a' b' := by
  rw [xorByte, byteOperand_xor]
  exact xor_xor_xor_comm a a' _ _

theorem byteStep_eq_rounds (a : U32) (b : Byte) : byteStep a b = rounds 8 (xorByte a b) := rfl

theorem byteStep_xor (a a' : U32) (b b' : Byte) :
    byteStep (a ^^^ a') (b ^^^ b') = byteStep a b ^^^ byteStep a' b' := by
  simp only [byteStep_eq_rounds, xorByte_xor, rounds_xor]

/-- Settles O50: a round is linear bit by bit, and a byte step is rounds of an exclusive-or. -/
theorem roundsAndBytesAreLinear : Obligations.RoundsAndBytesAreLinear := by
  refine ⟨round_xor, byteStep_xor, fun a b => ?_⟩
  rw [byteStep_eq_rounds, byteStep_eq_rounds, xorByte_zero]
  rfl

/-! ### The message-bit-serial form (R132) -/

theorem getLsbD_byteOperand (b : Byte) (i : Nat) :
    (byteOperand b).getLsbD i = (decide (24 ≤ i) && b.getLsbD (i - 24)) := by
  by_cases hi : i < 32
  · by_cases h24 : 24 ≤ i
    · simp [byteOperand, hi, h24]
    · simp [byteOperand, h24]
  · rw [BitVec.getLsbD_of_ge _ _ (not_lt.1 hi), BitVec.getLsbD_of_ge b _ (by omega), Bool.and_false]

theorem byteOperand_shiftLeft (b : Byte) : byteOperand b <<< 1 = byteOperand (b <<< 1) := by
  apply BitVec.eq_of_getLsbD_eq
  intro i hi
  rw [BitVec.getLsbD_shiftLeft, getLsbD_byteOperand, getLsbD_byteOperand, BitVec.getLsbD_shiftLeft]
  by_cases h : 25 ≤ i
  · have hsub : i - 1 - 24 = i - 24 - 1 := by omega
    simp [hi, hsub, show ¬ i < 1 by omega, show 24 ≤ i - 1 by omega, show 24 ≤ i by omega,
      show i - 24 < 8 by omega, show ¬ i - 24 < 1 by omega]
  · simp [show ¬ 24 ≤ i - 1 by omega, show i - 24 < 1 by omega]

theorem topBit_byteOperand (b : Byte) : topBit (byteOperand b) = b.getLsbD 7 := getLsbD_byteOperand b 31

/-- A round with a byte in the high bits takes in the byte's top bit and moves the others up. -/
theorem round_xorByte (a : U32) (b : Byte) :
    round (xorByte a b) = xorByte (serialBit a (b.getLsbD 7)) (b <<< 1) := by
  rw [round_eq, xorByte, topBit_xor, topBit_byteOperand, BitVec.shiftLeft_xor_distrib, byteOperand_shiftLeft,
    serialBit, xorByte, BitVec.xor_assoc, BitVec.xor_assoc, BitVec.xor_comm (byteOperand _)]

/-- The message bits of a byte from bit n - 1 down, one at a time: the byte moves up as they are taken in. -/
theorem rounds_xorByte (n : Nat) (a : U32) (b : Byte) :
    rounds n (xorByte a b) =
      xorByte ((List.range n).foldl (fun a j => serialBit a ((b <<< j).getLsbD 7)) a) (b <<< n) := by
  induction n with
  | zero => rw [rounds_zero, BitVec.shiftLeft_zero]; rfl
  | succ n ih =>
    rw [rounds_add, ih, List.range_succ, List.foldl_append, rounds_succ, rounds_zero, round_xorByte,
      ← BitVec.shiftLeft_add]
    rfl

theorem byteStep_eq_serialByte (a : U32) (b : Byte) : byteStep a b = serialByte a b := by
  have hout : b <<< 8 = 0 := BitVec.shiftLeft_eq_zero le_rfl
  rw [byteStep_eq_rounds, rounds_xorByte, hout, xorByte_zero]
  simp [serialByte, List.range_succ]

/-- Settles O48: every round of a byte step takes in one message bit. -/
theorem byteIsEightSerialBits : Obligations.ByteIsEightSerialBits :=
  fun _ a b h => ⟨_, exec_crcByte b h, congrArg some (byteStep_eq_serialByte a b)⟩

/-! ### The table form (R133) -/

/-- Rounds in which the top bit is never set are shifts. -/
theorem rounds_eq_shiftLeft (k : Nat) {a : U32} (h : ∀ i, 32 - k ≤ i → a.getLsbD i = false) :
    rounds k a = a <<< k := by
  induction k generalizing a with
  | zero => rw [rounds_zero, BitVec.shiftLeft_zero]
  | succ k ih =>
    have hround : round a = a <<< 1 := if_neg (by rw [topBit, h 31 (by omega)]; exact Bool.false_ne_true)
    rw [rounds_succ, hround, ih, ← BitVec.shiftLeft_add, Nat.add_comm]
    intro i hi
    rw [BitVec.getLsbD_shiftLeft]
    by_cases h1 : i < 1
    · simp [h1]
    · rw [h (i - 1) (by omega), Bool.and_false]

/-- Absorbing an accumulator's own high byte shifts it out. -/
theorem byteStep_highByte (a : U32) : byteStep a (a.extractLsb' 24 8) = a <<< 8 := by
  have hlow (i : Nat) : (xorByte a (a.extractLsb' 24 8)).getLsbD i = (decide (i < 24) && a.getLsbD i) := by
    rw [xorByte, BitVec.getLsbD_xor, getLsbD_byteOperand, BitVec.getLsbD_extractLsb']
    by_cases h24 : 24 ≤ i
    · by_cases h32 : i < 32
      · have hi : 24 + (i - 24) = i := by omega
        simp [h24, hi, show i - 24 < 8 by omega, show ¬ i < 24 by omega]
      · simp [BitVec.getLsbD_of_ge a i (not_lt.1 h32), show ¬ i - 24 < 8 by omega]
    · simp [h24, show i < 24 by omega]
  rw [byteStep_eq_rounds, rounds_eq_shiftLeft 8 fun i hi => by rw [hlow, decide_eq_false (by omega), Bool.false_and]]
  apply BitVec.eq_of_getLsbD_eq
  intro i hi
  rw [BitVec.getLsbD_shiftLeft, BitVec.getLsbD_shiftLeft, hlow, decide_eq_true (show i - 8 < 24 by omega),
    Bool.true_and]

theorem byteStep_eq_tableByte (a : U32) (b : Byte) : byteStep a b = tableByte a b := by
  have ha : a = a ^^^ 0 := (BitVec.xor_zero).symm
  have hb : b = a.extractLsb' 24 8 ^^^ (a.extractLsb' 24 8 ^^^ b) := by
    rw [← BitVec.xor_assoc, BitVec.xor_self, BitVec.zero_xor]
  calc byteStep a b
      = byteStep (a ^^^ 0) (a.extractLsb' 24 8 ^^^ (a.extractLsb' 24 8 ^^^ b)) := by rw [← ha, ← hb]
    _ = byteStep a (a.extractLsb' 24 8) ^^^ byteStep 0 (a.extractLsb' 24 8 ^^^ b) := byteStep_xor ..
    _ = tableByte a b := by rw [byteStep_highByte]; rfl

theorem tableEntry_eq_rounds (v : Byte) : tableEntry v = rounds 8 (byteOperand v) := by
  rw [tableEntry, byteStep_eq_rounds, xorByte, BitVec.zero_xor]

/-- Settles O49: the high byte is shifted out and the rest of a byte step is linear in what is left of it. -/
theorem byteIsTheTableForm : Obligations.ByteIsTheTableForm := by
  refine ⟨fun s a b h => ⟨_, exec_crcByte b h, congrArg some (byteStep_eq_tableByte a b)⟩,
    tableEntry_eq_rounds, ?_⟩
  simp [tableEntry, byteStep, Config.rounds, rounds, round, xorByte, byteOperand, topBit, Config.poly]

/-! ### The residue (R136) -/

/-- Absorbing is linear too: zero bytes on one side leave the message on the other. -/
theorem absorb_xor (a a' : U32) (data : List Byte) :
    absorb (a ^^^ a') data = absorb a (List.replicate data.length 0) ^^^ absorb a' data := by
  induction data generalizing a a' with
  | nil => rfl
  | cons b data ih =>
    have hb : b = 0 ^^^ b := (BitVec.zero_xor).symm
    rw [List.length_cons, List.replicate_succ, absorb_cons, absorb_cons, absorb_cons, ← ih, ← byteStep_xor, ← hb]

theorem extractLsb'_shiftLeft_high (c : U32) (k : Nat) (hk : k ≤ 24) :
    (c <<< k).extractLsb' 24 8 = c.extractLsb' (24 - k) 8 := by
  apply BitVec.eq_of_getLsbD_eq
  intro i hi
  rw [BitVec.getLsbD_extractLsb', BitVec.getLsbD_extractLsb', BitVec.getLsbD_shiftLeft]
  have hsub : 24 + i - k = 24 - k + i := by omega
  simp [hi, hsub, show 24 + i < 32 by omega, show ¬ 24 + i < k by omega]

/-- A value's own bytes shift it out of the accumulator. -/
theorem absorb_be (c : U32) : absorb c (be 4 c) = 0 := by
  have hbe : be 4 c = [c.extractLsb' 24 8, (c <<< 8).extractLsb' 24 8, (c <<< 8 <<< 8).extractLsb' 24 8,
      (c <<< 8 <<< 8 <<< 8).extractLsb' 24 8] := by
    simp only [← BitVec.shiftLeft_add]
    rw [extractLsb'_shiftLeft_high c 8 (by omega), extractLsb'_shiftLeft_high c (8 + 8) (by omega),
      extractLsb'_shiftLeft_high c (8 + 8 + 8) (by omega)]
    rfl
  rw [hbe]
  simp only [absorb_cons, absorb_nil, byteStep_highByte, ← BitVec.shiftLeft_add]
  exact BitVec.shiftLeft_eq_zero le_rfl

theorem absorb_ones_zeros : absorb 0xFFFFFFFF#32 (List.replicate 4 0) = 0xC704DD7B#32 := by
  simp [absorb, byteStep, Config.rounds, rounds, round, xorByte, byteOperand, topBit, Config.poly, List.replicate]

/-- Whatever the message, its checksum behind it leaves one value. -/
theorem absorb_own_checksum (a : U32) : absorb a (be 4 (finalOf a)) = 0xC704DD7B#32 := by
  have hones : a = 0xFFFFFFFF#32 ^^^ finalOf a := by
    rw [finalOf_eq_xor, BitVec.xor_comm a, ← BitVec.xor_assoc]
    exact (BitVec.zero_xor).symm
  have hlen : (be 4 (finalOf a)).length = 4 := be_length 4 _
  calc absorb a (be 4 (finalOf a))
      = absorb (0xFFFFFFFF#32 ^^^ finalOf a) (be 4 (finalOf a)) := by rw [← hones]
    _ = 0xC704DD7B#32 ^^^ 0#32 := by rw [absorb_xor, hlen, absorb_be, absorb_ones_zeros]; rfl
    _ = 0xC704DD7B#32 := BitVec.xor_zero

/-- Settles O52: the message leaves some accumulator, and its complement behind the message leaves the same value for
every one. -/
theorem messageWithItsChecksumHasTheResidue : Obligations.MessageWithItsChecksumHasTheResidue := by
  intro s t msg c hexec hresp
  cases hexec
  have hc : finalOf (absorb Config.init msg) = c := by simpa [computeChecksum] using hresp
  have hacc : absorb Config.init (msg ++ be 4 c) = 0xC704DD7B#32 := by
    rw [absorb_append, ← hc, absorb_own_checksum]
  rw [exec_crcCompute, hacc]
  rfl

/-! ### The remainder over GF(2) (40_checksum_engine.md R135) -/

section Remainder

open Polynomial

/-- The n low bits of a number as a polynomial over GF(2). -/
noncomputable def bitsPoly (n v : Nat) : (ZMod 2)[X] := ∑ i ∈ Finset.range n, if v.testBit i then X ^ i else 0

/-- The generator: POLY below its implied top term (R131). -/
noncomputable def generator : (ZMod 2)[X] := X ^ 32 + bitsPoly 32 Config.poly.toNat

theorem bitsPoly_poly :
    bitsPoly 32 Config.poly.toNat =
      X ^ 26 + X ^ 23 + X ^ 22 + X ^ 16 + X ^ 12 + X ^ 11 + X ^ 10 + X ^ 8 + X ^ 7 + X ^ 5 + X ^ 4 + X ^ 2 + X + 1 := by
  have htaps : (Finset.range 32).filter (fun i => Config.poly.toNat.testBit i = true) =
      {26, 23, 22, 16, 12, 11, 10, 8, 7, 5, 4, 2, 1, 0} := by decide
  rw [bitsPoly, ← Finset.sum_filter, htaps]
  simp [add_assoc]

theorem degree_bitsPoly_lt (n v : Nat) : (bitsPoly n v).degree < n := by
  rw [← mem_degreeLT]
  refine Submodule.sum_mem _ fun i hi => ?_
  split
  · rw [mem_degreeLT, degree_X_pow]
    exact_mod_cast Finset.mem_range.1 hi
  · exact Submodule.zero_mem _

theorem generator_monic : generator.Monic := monic_X_pow_add (degree_bitsPoly_lt 32 _)

theorem degree_generator : generator.degree = (32 : Nat) := by
  have hlt : (bitsPoly 32 Config.poly.toNat).degree < (X ^ 32 : (ZMod 2)[X]).degree := by
    rw [degree_X_pow]
    exact degree_bitsPoly_lt 32 _
  rw [generator, degree_add_eq_left_of_degree_lt hlt, degree_X_pow]

theorem bitsPoly_xor (n v w : Nat) : bitsPoly n (v ^^^ w) = bitsPoly n v + bitsPoly n w := by
  rw [bitsPoly, bitsPoly, bitsPoly, ← Finset.sum_add_distrib]
  refine Finset.sum_congr rfl fun i _ => ?_
  rw [Nat.testBit_xor]
  cases v.testBit i <;> cases w.testBit i <;> simp [CharTwo.add_self_eq_zero]

/-- High bits moved up by n, above n low ones. -/
theorem bitsPoly_append (m n v : Nat) {w : Nat} (hw : w < 2 ^ n) :
    bitsPoly (n + m) (2 ^ n * v + w) = bitsPoly m v * X ^ n + bitsPoly n w := by
  rw [add_comm (bitsPoly m v * X ^ n), bitsPoly, Finset.sum_range_add, bitsPoly, bitsPoly, Finset.sum_mul]
  congr 1
  · refine Finset.sum_congr rfl fun i hi => ?_
    rw [Nat.testBit_two_pow_mul_add v hw, if_pos (c := i < n) (Finset.mem_range.1 hi)]
  · refine Finset.sum_congr rfl fun i _ => ?_
    have hbit : (2 ^ n * v + w).testBit (n + i) = v.testBit i := by simp [Nat.testBit_two_pow_mul_add v hw]
    rw [hbit]
    split <;> simp [pow_add, mul_comm]

theorem bitsPoly_mod (n v : Nat) : bitsPoly n (v % 2 ^ n) = bitsPoly n v := by
  refine Finset.sum_congr rfl fun i hi => ?_
  rw [Nat.testBit_mod_two_pow, decide_eq_true (Finset.mem_range.1 hi), Bool.true_and]

/-- The accumulator as a polynomial. -/
noncomputable def accPoly (a : U32) : (ZMod 2)[X] := bitsPoly 32 a.toNat

theorem accPoly_xor (a a' : U32) : accPoly (a ^^^ a') = accPoly a + accPoly a' := by
  rw [accPoly, BitVec.toNat_xor, bitsPoly_xor]
  rfl

/-- The bit shifted out is the coefficient that leaves the 32. -/
theorem accPoly_shiftLeft (a : U32) :
    accPoly (a <<< 1) = accPoly a * X + if topBit a then X ^ 32 else 0 := by
  have hup : bitsPoly 33 (2 * a.toNat) = accPoly a * X := by
    simpa [accPoly, bitsPoly] using bitsPoly_append 32 1 a.toNat (w := 0) (by decide)
  have htop : (2 * a.toNat).testBit 32 = topBit a := by
    rw [Nat.testBit_succ, Nat.mul_div_cancel_left _ two_pos]
    rfl
  have hsplit : bitsPoly 33 (2 * a.toNat) = accPoly (a <<< 1) + if topBit a then X ^ 32 else 0 := by
    rw [bitsPoly, Finset.sum_range_succ, htop, accPoly, BitVec.toNat_shiftLeft, bitsPoly_mod, Nat.shiftLeft_eq,
      pow_one, mul_comm a.toNat]
    rfl
  rw [← hup, hsplit, add_assoc, CharTwo.add_self_eq_zero, add_zero]

/-- A round multiplies by X and takes the generator off where the top bit was set. -/
theorem accPoly_round (a : U32) : accPoly (round a) = accPoly a * X + if topBit a then generator else 0 := by
  rw [round_eq, accPoly_xor, accPoly_shiftLeft]
  cases topBit a with
  | true => exact add_assoc _ _ _
  | false => simp [accPoly, bitsPoly]

/-! Modulo the generator, in the quotient ring. -/

theorem mk_accPoly_rounds (k : Nat) (a : U32) :
    AdjoinRoot.mk generator (accPoly (rounds k a)) = AdjoinRoot.mk generator (accPoly a * X ^ k) := by
  induction k generalizing a with
  | zero => rw [rounds_zero, pow_zero, mul_one]
  | succ k ih =>
    have hround : AdjoinRoot.mk generator (accPoly (round a)) = AdjoinRoot.mk generator (accPoly a * X) := by
      rw [accPoly_round, map_add]
      cases topBit a <;> simp
    rw [rounds_succ, ih, map_mul, hround, ← map_mul, mul_assoc, pow_succ']

theorem accPoly_byteOperand (b : Byte) : accPoly (byteOperand b) = bitsPoly 8 b.toNat * X ^ 24 := by
  have hb : (byteOperand b).toNat = 2 ^ 24 * b.toNat := by
    have := b.isLt
    simp [byteOperand, Nat.shiftLeft_eq]
    omega
  have happend := bitsPoly_append 8 24 b.toNat (w := 0) (by decide)
  rw [add_zero] at happend
  rw [accPoly, hb, happend]
  simp [bitsPoly]

theorem mk_accPoly_byteStep (a : U32) (b : Byte) :
    AdjoinRoot.mk generator (accPoly (byteStep a b)) =
      AdjoinRoot.mk generator (accPoly a * X ^ 8 + bitsPoly 8 b.toNat * X ^ 32) := by
  rw [byteStep_eq_rounds, mk_accPoly_rounds, xorByte, accPoly_xor, accPoly_byteOperand]
  refine congrArg (AdjoinRoot.mk generator) ?_
  ring

/-- The message as a number, one byte more at its low end. -/
theorem bitsPoly_frombe_append (msg : List Byte) (b : Byte) :
    bitsPoly (8 * (msg ++ [b]).length) (frombe (msg ++ [b])) =
      bitsPoly (8 * msg.length) (frombe msg) * X ^ 8 + bitsPoly 8 b.toNat := by
  rw [frombe_append_singleton, List.length_append, List.length_singleton, mul_add, mul_one, add_comm (8 * _),
    mul_comm (frombe msg)]
  exact bitsPoly_append _ 8 _ b.isLt

theorem mk_accPoly_absorb (a : U32) (msg : List Byte) :
    AdjoinRoot.mk generator (accPoly (absorb a msg)) =
      AdjoinRoot.mk generator
        (accPoly a * X ^ (8 * msg.length) + bitsPoly (8 * msg.length) (frombe msg) * X ^ 32) := by
  induction msg using List.reverseRecOn with
  | nil => simp [bitsPoly]
  | append_singleton msg b ih =>
    rw [absorb_append, absorb_cons, absorb_nil, mk_accPoly_byteStep, map_add, map_mul, ih, ← map_mul, ← map_add,
      bitsPoly_frombe_append, List.length_append, List.length_singleton]
    refine congrArg (AdjoinRoot.mk generator) ?_
    ring

/-- What has degree below the generator's and its residue is the remainder. -/
theorem accPoly_eq_modByMonic {a : U32} {p : (ZMod 2)[X]}
    (h : AdjoinRoot.mk generator (accPoly a) = AdjoinRoot.mk generator p) : accPoly a = p %ₘ generator := by
  have hdeg : (accPoly a).degree < generator.degree := by
    rw [degree_generator]
    exact degree_bitsPoly_lt 32 _
  rw [← (modByMonic_eq_self_iff generator_monic).2 hdeg]
  exact modByMonic_eq_of_dvd_sub generator_monic (AdjoinRoot.mk_eq_mk.1 h)

theorem generator_eq :
    generator = X ^ 32 + X ^ 26 + X ^ 23 + X ^ 22 + X ^ 16 + X ^ 12 + X ^ 11 + X ^ 10 + X ^ 8 + X ^ 7 + X ^ 5 + X ^ 4 +
      X ^ 2 + X + 1 := by
  rw [generator, bitsPoly_poly]
  ring

end Remainder

/-- Settles O51: modulo the generator a round multiplies by X, so a byte step multiplies by its eighth power and adds
the byte. -/
theorem accIsThePolynomialRemainder : Obligations.AccIsThePolynomialRemainder := by
  intro s start msg hacc poly g
  refine ⟨_, absorb start msg, runOps_bytes msg hacc, rfl, ?_⟩
  have hg : g = generator := generator_eq.symm
  rw [hg]
  exact accPoly_eq_modByMonic (mk_accPoly_absorb start msg)

/-! ### The header space (10_state.md section 6) -/

theorem storeBytes_wf {m : Memory} {o : Nat} {bs : List Byte} (hm : m.wf = true) (ho : o + bs.length ≤ 64) :
    (storeBytes m o bs).wf = true := by
  induction bs generalizing m o with
  | nil => exact hm
  | cons b bs ih =>
    rw [List.length_cons] at ho
    exact ih (memWrite_wf b hm (show o < 64 by omega)) (by omega)

theorem storeField_wf {len : U64} {crc : U32} {r : Resolved} {res47 : List Byte} (h47 : res47.length = 47)
    (f : HdrField) {m : Memory} (hm : m.wf = true) : (storeField len crc r res47 f m).wf = true := by
  cases f with
  | expectedSize | expectedCrc | deviceType | dataType | protocolType =>
    exact storeBytes_wf hm (by rw [be_length]; decide)
  | reserved => exact storeBytes_wf hm (by rw [h47]; decide)

theorem foldl_storeField_wf {len : U64} {crc : U32} {r : Resolved} {res47 : List Byte} (h47 : res47.length = 47)
    (fs : List HdrField) {m : Memory} (hm : m.wf = true) :
    (fs.foldl (fun m f => storeField len crc r res47 f m) m).wf = true := by
  induction fs generalizing m with
  | nil => exact hm
  | cons f fs ih => exact ih (storeField_wf h47 f hm)

/-- Settles O42: a byte at one of the 64 offsets at a time. -/
theorem headerSpaceStaysCanonical : Obligations.HeaderSpaceStaysCanonical :=
  ⟨fun _ _ _ => storeBytes_wf, fun _ _ _ _ h47 => foldl_storeField_wf h47 _ nil_wf⟩

/-! ### The fields a header determines (41_header_builder.md R167) -/

theorem norm47_congr {res res' : List Int}
    (h : ∀ j, j < 47 → (res[j]?.map toU8).getD 0x00#8 = (res'[j]?.map toU8).getD 0x00#8) :
    norm47 res = norm47 res' := by
  refine List.ext_getElem? fun j => ?_
  by_cases hj : j < 47
  · rw [getElem?_norm47 res hj, getElem?_norm47 res' hj, h j hj]
  · rw [List.getElem?_eq_none (by rw [norm47_length]; omega), List.getElem?_eq_none (by rw [norm47_length]; omega)]

/-- A trailing zero is what the padding puts there. -/
theorem norm47_append_zero (res : List Int) : norm47 (res ++ [0]) = norm47 res := by
  refine norm47_congr fun j _ => ?_
  rcases Nat.lt_trichotomy j res.length with h | rfl | h
  · rw [List.getElem?_append_left h]
  · simp [toU8]
  · rw [List.getElem?_eq_none (by simp; omega), List.getElem?_eq_none h.le]

theorem norm47_append_past {res : List Int} (h : 47 ≤ res.length) (x : Int) : norm47 (res ++ [x]) = norm47 res :=
  norm47_congr fun j hj => by rw [List.getElem?_append_left (by omega)]

theorem eq_of_toU16_eq {x y : Int} (hx : 0 ≤ x ∧ x ≤ 65535) (hy : 0 ≤ y ∧ y ≤ 65535)
    (h : (toU16 x).toNat = (toU16 y).toNat) : x = y := by
  rw [← toNat_toU16 hx.1 hx.2, ← toNat_toU16 hy.1 hy.2, h]

theorem eq_of_toU8_eq {x y : Int} (hx : 0 ≤ x ∧ x ≤ 255) (hy : 0 ≤ y ∧ y ≤ 255)
    (h : (toU8 x).toNat = (toU8 y).toNat) : x = y := by
  rw [← toNat_toU8 hx.1 hx.2, ← toNat_toU8 hy.1 hy.2, h]

/-- Settles O15: equal headers parse back to equal fields, which the scalars in range fit exactly. -/
theorem headersDetermineTheirFields : Obligations.HeadersDetermineTheirFields := by
  refine ⟨fun s t s' t' len len' crc crc' md md' h hexec hok hexec' hok' => ?_, fun res _ => norm47_append_zero res,
    fun res x hlen => norm47_append_past hlen x⟩
  obtain ⟨hv, hlayout⟩ := layout_of_exec_hdrBuild_ok hexec hok
  obtain ⟨hv', hlayout'⟩ := layout_of_exec_hdrBuild_ok hexec' hok'
  obtain ⟨hdevRange, hdatRange, hproRange, -⟩ := (firstViolation_none _).1 hv
  obtain ⟨hdevRange', hdatRange', hproRange', -⟩ := (firstViolation_none _).1 hv'
  have hread := congrArg readHeader (hlayout.symm.trans hlayout')
  rw [readHeader_layout _ _ _ (norm47_length _), readHeader_layout _ _ _ (norm47_length _)] at hread
  obtain ⟨hlen, hcrc, hdev, hdat, hpro, hres⟩ := HeaderFields.mk.inj hread
  exact ⟨BitVec.eq_of_toNat_eq hlen, BitVec.eq_of_toNat_eq hcrc, eq_of_toU16_eq hdevRange hdevRange' hdev,
    eq_of_toU8_eq hdatRange hdatRange' hdat, eq_of_toU16_eq hproRange hproRange' hpro, hres⟩

/-! ### The header as one vector (30_encoding.md R85) -/

theorem frombe_append (xs ys : List Byte) : frombe (xs ++ ys) = frombe xs * 256 ^ ys.length + frombe ys := by
  induction ys using List.reverseRecOn with
  | nil => simp [frombe]
  | append_singleton ys b ih =>
    rw [← List.append_assoc, frombe_append_singleton, frombe_append_singleton, ih, List.length_append,
      List.length_singleton]
    ring

theorem frombe_lt (xs : List Byte) : frombe xs < 256 ^ xs.length := by
  induction xs using List.reverseRecOn with
  | nil => simp [frombe]
  | append_singleton xs b ih =>
    rw [frombe_append_singleton, List.length_append, List.length_singleton, pow_succ]
    have := b.isLt
    omega

theorem two_pow_eight_mul (m : Nat) : 2 ^ (8 * m) = 256 ^ m := pow_mul 2 8 m

/-- A word as wide as its bytes holds the number they denote. -/
theorem toNat_ofNat_frombe {w : Nat} {h : List Byte} (hw : w = 8 * h.length) :
    (BitVec.ofNat w (frombe h)).toNat = frombe h := by
  rw [BitVec.toNat_ofNat, Nat.mod_eq_of_lt]
  rw [hw, two_pow_eight_mul]
  exact frombe_lt h

theorem headerVector_toNat {h : List Byte} (hlen : h.length = 64) : (headerVector h).toNat = frombe h :=
  toNat_ofNat_frombe (by rw [hlen])

/-- The n bytes from offset o on are the 8 n bits that stand as far up as bytes follow them. -/
theorem toNat_extractLsb'_headerVector {h : List Byte} (hlen : h.length = 64) {o n : Nat} (hle : o + n ≤ 64) :
    ((headerVector h).extractLsb' (8 * (64 - (o + n))) (8 * n)).toNat = frombe (slice o n h) := by
  have hsplit : h = h.take o ++ slice o n h ++ h.drop (o + n) := by
    rw [slice, List.append_assoc, ← List.drop_drop, List.take_append_drop, List.take_append_drop]
  have hpost : (h.drop (o + n)).length = 64 - (o + n) := by rw [List.length_drop, hlen]
  have hmid : (slice o n h).length = n := by
    rw [slice, List.length_take, List.length_drop]
    omega
  have hnum : frombe h = 256 ^ (64 - (o + n)) * (frombe (h.take o) * 256 ^ n + frombe (slice o n h)) +
      frombe (h.drop (o + n)) := by
    conv_lhs => rw [hsplit, frombe_append, frombe_append, hpost, hmid, Nat.mul_comm]
  have hpostLt : frombe (h.drop (o + n)) < 256 ^ (64 - (o + n)) := hpost ▸ frombe_lt _
  have hmidLt : frombe (slice o n h) < 256 ^ n := by
    conv_rhs => rw [← hmid]
    exact frombe_lt _
  rw [BitVec.extractLsb'_toNat, headerVector_toNat hlen, Nat.shiftRight_eq_div_pow, two_pow_eight_mul,
    two_pow_eight_mul, hnum, Nat.mul_add_div (by positivity), Nat.div_eq_of_lt hpostLt, Nat.add_zero,
    Nat.mul_add_mod_self_right, Nat.mod_eq_of_lt hmidLt]

theorem getElem?_eq_extract_headerVector {h : List Byte} (hlen : h.length = 64) {o : Nat} (ho : o < 64) :
    h[o]? = some ((headerVector h).extractLsb' (504 - 8 * o) 8) := by
  have hlt : o < h.length := hlen ▸ ho
  have hone : slice o 1 h = [h[o]] := by
    rw [slice, List.drop_eq_getElem_cons hlt]
    rfl
  have hbits := toNat_extractLsb'_headerVector hlen (show o + 1 ≤ 64 from ho)
  rw [hone, show 8 * (64 - (o + 1)) = 504 - 8 * o by omega] at hbits
  rw [List.getElem?_eq_getElem hlt, Option.some_inj]
  exact BitVec.eq_of_toNat_eq (hbits.trans (by simp [frombe])).symm

/-- Settles O16: the bits of each field are its bytes in the layout, which parse back to its value. -/
theorem headerVectorPlacesTheFields : Obligations.HeaderVectorPlacesTheFields := by
  intro s t len crc md h hexec hok
  obtain ⟨-, rfl⟩ := layout_of_exec_hdrBuild_ok hexec hok
  have h47 := norm47_length (resolve md).res
  have hlen := layout_length len crc (resolve md) h47
  obtain ⟨hsize, hcrc, hdev, hdat, hpro, -⟩ := HeaderFields.mk.inj (readHeader_layout len crc (resolve md) h47)
  have hbits {o n : Nat} (hle : o + n ≤ 64) := toNat_extractLsb'_headerVector hlen hle
  exact ⟨fun o ho => getElem?_eq_extract_headerVector hlen ho,
    BitVec.eq_of_toNat_eq ((hbits (show 0 + 8 ≤ 64 by omega)).trans hsize),
    BitVec.eq_of_toNat_eq ((hbits (show 8 + 4 ≤ 64 by omega)).trans hcrc),
    BitVec.eq_of_toNat_eq ((hbits (show 12 + 2 ≤ 64 by omega)).trans hdev),
    BitVec.eq_of_toNat_eq ((hbits (show 14 + 1 ≤ 64 by omega)).trans hdat),
    BitVec.eq_of_toNat_eq ((hbits (show 15 + 2 ≤ 64 by omega)).trans hpro)⟩

/-! ### The image and its consumer (20_memory.md R62, 70_reset_and_hazards.md R233) -/

theorem slice_append {o n : Nat} {h : List Byte} (hle : o + n ≤ h.length) (rest : List Byte) :
    slice o n (h ++ rest) = slice o n h := by
  rw [slice, List.drop_append_of_le_length (by omega), List.take_append_of_le_length (by rw [List.length_drop]; omega)]
  rfl

/-- What follows the header is not read. -/
theorem readHeader_append {h : List Byte} (hlen : h.length = 64) (rest : List Byte) :
    readHeader (h ++ rest) = readHeader h := by
  have hslice {o n : Nat} (hle : o + n ≤ 64) : slice o n (h ++ rest) = slice o n h := slice_append (hlen ▸ hle) rest
  simp only [readHeader, hslice (show 0 + 8 ≤ 64 by omega), hslice (show 8 + 4 ≤ 64 by omega),
    hslice (show 12 + 2 ≤ 64 by omega), hslice (show 14 + 1 ≤ 64 by omega), hslice (show 15 + 2 ≤ 64 by omega),
    hslice (show 17 + 47 ≤ 64 by omega)]

theorem packImage_ok {payload : List Byte} {md : FirmwareMetadata} {img : List Byte}
    (h : packImage payload md = some (.ok img)) :
    payload.length < 2 ^ 64 ∧
      ∃ hdr, buildHeader (BitVec.ofNat 64 payload.length) (computeChecksum payload) md = .ok hdr ∧
        img = hdr ++ payload := by
  unfold packImage at h
  split at h
  next hlt =>
    split at h
    next hdr hb => cases h; exact ⟨hlt, hdr, hb, rfl⟩
    next => cases h
  next => cases h

/-- A built header parses back to the length and the checksum it was built from. -/
theorem readHeader_buildHeader {len : U64} {crc : U32} {md : FirmwareMetadata} {hdr : List Byte}
    (h : buildHeader len crc md = .ok hdr) :
    (readHeader hdr).expectedSize = len.toNat ∧ (readHeader hdr).expectedCrc = crc.toNat := by
  have hexec : exec (.hdrBuild len crc md) State.reset = .next (respond (.ok hdr) State.reset) := by
    rw [exec_hdrBuild, h]
  obtain ⟨-, rfl⟩ := layout_of_exec_hdrBuild_ok hexec rfl
  rw [readHeader_layout _ _ _ (norm47_length _)]
  exact ⟨rfl, rfl⟩

/-- Settles O53: the header is the one HDR.BUILD delivers for the payload's length and checksum, and the consumer sees
the payload behind its 64 bytes. -/
theorem packedImagesAreAccepted : Obligations.PackedImagesAreAccepted := by
  intro payload md img hpack
  obtain ⟨hlt, hdr, hbuild, rfl⟩ := packImage_ok hpack
  have hlen := buildHeader_ok_length hbuild
  obtain ⟨hsize, hcrc⟩ := readHeader_buildHeader hbuild
  have hread := readHeader_append hlen payload
  refine ⟨hdr, computeChecksum payload, rfl, hlen, by rw [List.length_append, hlen], ?_, ?_, ?_, fun s => ?_⟩
  · rw [hread, hsize, BitVec.toNat_ofNat, Nat.mod_eq_of_lt hlt]
  · rw [hread, hcrc]
  · have hdrop : (hdr ++ payload).drop Config.hdrSize = payload := List.drop_left' hlen
    rw [consumerVerdict, hdrop, hread, hcrc, if_pos (by rw [List.length_append, hlen]; exact Nat.le_add_right _ _),
      beq_self_eq_true]
  · refine ⟨_, runOps_pair (i := .crcCompute payload) rfl (by rw [exec_hdrBuild, hbuild]), ?_⟩
    simp

end Sys2Proof.Machine
end
